-- ==== Sys2Proof/Word.lean ====
section
/-!
DEFINITION. The word types of CRCDIV and the arithmetic of its notation.

R9 (00_scope.md): every integer is an unsigned natural number, and a value of width n is a natural number below 2^n.
So the integers whose width is the parameter MAX_LEN (the operand, REM, WR, WP, the integer payloads) are naturals, their
widths a part of the invariant (Safety.lean), and the quantities of a fixed width (the command word, its fields, the length
registers, ERR_CAUSE, STATUS) are bit vectors.
-/

namespace Sys2Proof

/-- A command word or the STATUS word (R71, R33). -/
abbrev Word := BitVec 32

/-- An 8-bit quantity: a field of the command word, a length register, a code, a character (R72, R22, R81, R103). -/
abbrev Byte := BitVec 8

/-- A bit sequence, first element the most significant digit (R10). Element `i` is lane `i`. -/
abbrev Seq := List Bool

/-- Lane `i` of a sequence; a lane past its end reads 0, as the lanes past a register's length hold (R21). -/
def lane (s : Seq) (i : Nat) : Bool := s.getD i false

/-- `bitLength(x)` of R11: the position of the highest set bit plus one, and 0 for 0. -/
def bitLength (x : Nat) : Nat := if x = 0 then 0 else x.log2 + 1

end Sys2Proof
end

