-- ==== Sys2Proof/Syntax.lean ====
section
/-!
DEFINITION. The commands of CRCDIV, one constructor per row of the opcode map (30_encoding.md R75).

A command is a pair of a command word and a MAX_LEN-bit operand (R70). A constructor holds the fields the opcode uses and,
for the commands that read it, the operand; NOP, CRC, RDREM and RDSTAT ignore the operand (R78), so they hold none.
-/

namespace Sys2Proof

/-- The nine commands of R75. `len`, `width`, `start` and `stop` are the unsigned 8-bit fields A, B and C (R72, R73);
`opnd` is the operand vector, read in sequence form or in integer form by the meaning (R76, R77). -/
inductive Instr where
  /-- R170 -/
  | nop
  /-- R131: `LDKEY L, seq` -/
  | ldkey (len : Byte) (opnd : Nat)
  /-- R132: `LDDVD L, seq` -/
  | lddvd (len : Byte) (opnd : Nat)
  /-- R133 -/
  | crc
  /-- R143 -/
  | rdrem
  /-- R171 -/
  | rdstat
  /-- R104: `S2I L, seq` -/
  | s2i (len : Byte) (opnd : Nat)
  /-- R105: `I2S W, int` -/
  | i2s (width : Byte) (opnd : Nat)
  /-- R106: `DIGITS L, start, end, seq` -/
  | digits (len start stop : Byte) (opnd : Nat)
  deriving DecidableEq, Repr

end Sys2Proof
end

