-- ==== Sys2Proof/Decode.lean ====
section
/-!
DEFINITION. The decoder of command words (30_encoding.md R82), the opcode map (R75), and the encoder written from the same
map.

The decoder is total: every 32-bit word is one of the nine commands or is rejected with a reason's name. It never looks at
the operand (R82); it only hands the operand on to the commands that read one.
-/

namespace Sys2Proof

/-- Why a word is illegal (R74, R75, R83). The block reports both as E_ILLEGAL (R181). -/
inductive DecodeReject where
  /-- opcode 0x00 or 0x0A to 0xFF -/
  | illegalOpcode (op : Byte)
  /-- a field that the opcode does not use is not 0 -/
  | unusedFieldNotZero (op : Byte)
  deriving DecidableEq, Repr

/-- R72: bits 7:0. -/
def fieldOP (w : Word) : Byte := w.extractLsb' 0 8

/-- R72: bits 15:8. -/
def fieldA (w : Word) : Byte := w.extractLsb' 8 8

/-- R72: bits 23:16. -/
def fieldB (w : Word) : Byte := w.extractLsb' 16 8

/-- R72: bits 31:24. -/
def fieldC (w : Word) : Byte := w.extractLsb' 24 8

/-- One row of the opcode map R75: a word `w` is in the row when `w &&& mask = pattern`. -/
structure OpcodeRow where
  mnemonic : String
  pattern : Word
  mask : Word
  deriving DecidableEq, Repr

/-- R75: the nine legal rows, as the spec's table gives their match and mask. -/
def opcodeTable : List OpcodeRow :=
  [ ⟨"NOP", 0x00000001, 0xFFFFFFFF⟩,
    ⟨"LDKEY", 0x00000002, 0xFFFF00FF⟩,
    ⟨"LDDVD", 0x00000003, 0xFFFF00FF⟩,
    ⟨"CRC", 0x00000004, 0xFFFFFFFF⟩,
    ⟨"RDREM", 0x00000005, 0xFFFFFFFF⟩,
    ⟨"RDSTAT", 0x00000006, 0xFFFFFFFF⟩,
    ⟨"S2I", 0x00000007, 0xFFFF00FF⟩,
    ⟨"I2S", 0x00000008, 0xFFFF00FF⟩,
    ⟨"DIGITS", 0x00000009, 0x000000FF⟩ ]

/-- A word is in a row of the map. -/
def OpcodeRow.covers (row : OpcodeRow) (w : Word) : Bool := w &&& row.mask == row.pattern

/-- A command that uses none of A, B and C (R74). -/
def decodeNoField (w : Word) (i : Instr) : Except DecodeReject Instr :=
  if fieldA w = 0 ∧ fieldB w = 0 ∧ fieldC w = 0 then .ok i else .error (.unusedFieldNotZero (fieldOP w))

/-- A command that uses A only (R74). -/
def decodeFieldA (w : Word) (i : Instr) : Except DecodeReject Instr :=
  if fieldB w = 0 ∧ fieldC w = 0 then .ok i else .error (.unusedFieldNotZero (fieldOP w))

/-- R82: `decode(w)`, total. The operand is handed on unread. -/
def decode (w : Word) (opnd : Nat) : Except DecodeReject Instr :=
  if fieldOP w = 0x01 then decodeNoField w .nop
  else if fieldOP w = 0x02 then decodeFieldA w (.ldkey (fieldA w) opnd)
  else if fieldOP w = 0x03 then decodeFieldA w (.lddvd (fieldA w) opnd)
  else if fieldOP w = 0x04 then decodeNoField w .crc
  else if fieldOP w = 0x05 then decodeNoField w .rdrem
  else if fieldOP w = 0x06 then decodeNoField w .rdstat
  else if fieldOP w = 0x07 then decodeFieldA w (.s2i (fieldA w) opnd)
  else if fieldOP w = 0x08 then decodeFieldA w (.i2s (fieldA w) opnd)
  else if fieldOP w = 0x09 then .ok (.digits (fieldA w) (fieldB w) (fieldC w) opnd)
  else .error (.illegalOpcode (fieldOP w))

/-- R72: the command word made of its four fields, bit `j` of weight `2^j` (R9). -/
def commandWord (op a b c : Byte) : Word :=
  BitVec.ofNat 32 (op.toNat + 2 ^ 8 * a.toNat + 2 ^ 16 * b.toNat + 2 ^ 24 * c.toNat)

/-- R75: a command's word. -/
def encodeWord : Instr → Word
  | .nop => commandWord 0x01 0 0 0
  | .ldkey len _ => commandWord 0x02 len 0 0
  | .lddvd len _ => commandWord 0x03 len 0 0
  | .crc => commandWord 0x04 0 0 0
  | .rdrem => commandWord 0x05 0 0 0
  | .rdstat => commandWord 0x06 0 0 0
  | .s2i len _ => commandWord 0x07 len 0 0
  | .i2s width _ => commandWord 0x08 width 0 0
  | .digits len start stop _ => commandWord 0x09 len start stop

/-- The operand a command is sent with; for a command that ignores it (R78), 0 is sent, as R79 shows it. -/
def encodeOperand : Instr → Nat
  | .ldkey _ opnd => opnd
  | .lddvd _ opnd => opnd
  | .s2i _ opnd => opnd
  | .i2s _ opnd => opnd
  | .digits _ _ _ opnd => opnd
  | .nop => 0
  | .crc => 0
  | .rdrem => 0
  | .rdstat => 0

/-- R70: a command as it is sent over the channel, its word and its operand. -/
def encode (i : Instr) : Word × Nat := (encodeWord i, encodeOperand i)

/-- The command word of an instruction given as one number, bit 0 the least significant bit of the word (log 8). -/
def tableWord (nbits w : Nat) : Word := BitVec.ofNat 32 (w % 2 ^ nbits)

/-- The operand of an instruction given as one number: its bits from 32 on (log 8). -/
def tableOperand (nbits w : Nat) : Nat := (w % 2 ^ nbits) >>> 32

/-- What the decoder reads from an instruction given as one number of `nbits` bits. -/
def decodeTableWord (nbits w : Nat) : Option Instr :=
  match decode (tableWord nbits w) (tableOperand nbits w) with
  | .ok i => some i
  | .error _ => none

end Sys2Proof
end

