-- ==== Sys2Proof/Config.lean ====
section
/-!
DEFINITION. The one implementation parameter of CRCDIV (00_scope.md R7), with its bounds.

The spec leaves no value open that needs a free value: R11 settles the bit length of 0, and every command's result is
given on every operand. So this file declares no opaque constant.
-/

namespace Sys2Proof

/-- R7: `MAX_LEN`, the longest bit sequence the block accepts, with `2 ≤ MAX_LEN ≤ 255`. The bounds stand beside the
number, so an instance outside them cannot be written down. -/
structure Config where
  maxLen : Nat
  two_le_maxLen : 2 ≤ maxLen
  maxLen_le_255 : maxLen ≤ 255
  deriving DecidableEq, Repr

/-- R7: the reference instance takes `MAX_LEN = 32`. -/
def Config.reference : Config := { maxLen := 32, two_le_maxLen := by decide, maxLen_le_255 := by decide }

end Sys2Proof
end

