-- ==== Sys2Proof/Machine/State.lean ====
section
/-!
DEFINITION. The state of CRCDIV (10_state.md R21 to R31, R36), the responses it gives (30_encoding.md R80, 60_exceptions.md
R180), the host's moves (70_reset_and_hazards.md R220), and the reasons a step can stop.
-/

namespace Sys2Proof.Machine

/-- R180: the status codes of a response, by name. The values 0x0A to 0xFF are never produced, so they have no name. -/
inductive Code where
  | ok
  | eIllegal
  | eKeylen
  | eKeyzero
  | eLen
  | eNokey
  | eNodvd
  | eNorem
  | eRange
  | faulted
  deriving DecidableEq, Repr

/-- R80: the kinds of a response's payload. -/
inductive Payload where
  | none
  /-- an unsigned integer below `2^MAX_LEN` -/
  | int (v : Nat)
  /-- a sequence of length `width` in sequence form: `MAX_LEN` lanes, those from `width` on 0 (log 18) -/
  | seq (lanes : Seq) (width : Byte)
  /-- a list of bytes, in order -/
  | chars (c : List Byte)
  /-- the STATUS word -/
  | status (s : Word)
  deriving DecidableEq, Repr

/-- R70: a response is a status code and a payload. -/
structure Response where
  code : Code
  payload : Payload
  deriving DecidableEq, Repr

/-- R220: what the host can do. -/
inductive HostMove where
  /-- present a command: a word and an operand (R70). While BUSY = 1 it is held (R214). -/
  | command (word : Word) (opnd : Nat)
  /-- send nothing for one step of the engine while a CRC is in flight (R220, row "wait") -/
  | wait
  /-- the reset action (R210), enabled always -/
  | reset
  deriving DecidableEq, Repr

/-- Why a step stops. No command of CRCDIV ends in one: every error is a next state with FAULT latched (R184). -/
inductive Fault where
  /-- Raised by `step` alone, when the host's next move is to wait and no CRC is in flight: the host is stuck, since no
  response will come (R211, R220; 93_implementation_defined.md U12). SAFE: no next state is claimed (log 4). -/
  | waitStuck
  deriving DecidableEq, Repr

/-- Why an instruction has no meaning. -/
inductive Refusal where
  /-- Raised by an arm of `exec` whose instruction has no meaning yet; there is none. SAFE: no next state is claimed. -/
  | notModelled (mnemonic : String)
  deriving DecidableEq, Repr

/-- Every state element of R36, under the spec's names, and four fields of the model's own: the instance's parameter
(log 1), the host's moves still to come (log 2), the responses delivered so far (log 3) and the number of accepted
commands whose response will never come (log 21). -/
structure State where
  /-- R7: `MAX_LEN`; no step changes it -/
  cfg : Config
  /-- R21: KEY_SEQ, `MAX_LEN` lanes -/
  keySeq : Seq
  /-- R22: KEY_LEN -/
  keyLen : Byte
  /-- R23: KEY_VALID -/
  keyValid : Bool
  /-- R24: DVD_SEQ, `MAX_LEN` lanes -/
  dvdSeq : Seq
  /-- R25: DVD_LEN -/
  dvdLen : Byte
  /-- R26: DVD_VALID -/
  dvdValid : Bool
  /-- R27: REM, `MAX_LEN - 1` bits -/
  rem : Nat
  /-- R28: REM_VALID -/
  remValid : Bool
  /-- R29: FAULT -/
  fault : Bool
  /-- R29: ERR_CAUSE -/
  errCause : Byte
  /-- R30: BUSY -/
  busy : Bool
  /-- R31: WR, `MAX_LEN` bits, the running remainder -/
  wr : Nat
  /-- R31: WP, `MAX_LEN` bits, the divisor's value -/
  wp : Nat
  /-- R31: WK, the divisor's length -/
  wk : Byte
  /-- the host's moves still to come, the next one first -/
  host : List HostMove
  /-- the responses delivered so far, the oldest first (R70: in command order) -/
  responses : List Response
  /-- how many accepted CRCs a reset has abandoned, so that their responses are never delivered (R211, R221 item 3) -/
  abandoned : Nat
  deriving DecidableEq, Repr

/-- R36: every state element at its reset value, on an instance; the host has no move left, no response has been
delivered and no CRC abandoned. -/
def State.resetOf (cfg : Config) : State where
  cfg := cfg
  keySeq := List.replicate cfg.maxLen false
  keyLen := 0
  keyValid := false
  dvdSeq := List.replicate cfg.maxLen false
  dvdLen := 0
  dvdValid := false
  rem := 0
  remValid := false
  fault := false
  errCause := 0
  busy := false
  wr := 0
  wp := 0
  wk := 0
  host := []
  responses := []
  abandoned := 0

/-- The reference instance (R7) right after reset (R36). -/
def State.reset : State := State.resetOf Config.reference

end Sys2Proof.Machine
end

