-- ==== Sys2Proof/Machine/Flags.lean ====
section
/-!
DEFINITION. The codes' values (60_exceptions.md R180) and the STATUS word (10_state.md R33). CRCDIV has no condition codes:
its flags are the valid flags, BUSY, FAULT and ERR_CAUSE, each written by the commands that name it (R29).
-/

namespace Sys2Proof.Machine

/-- R180: the 8-bit value of a status code. -/
def Code.bits : Code → Byte
  | .ok => 0x00
  | .eIllegal => 0x01
  | .eKeylen => 0x02
  | .eKeyzero => 0x03
  | .eLen => 0x04
  | .eNokey => 0x05
  | .eNodvd => 0x06
  | .eNorem => 0x07
  | .eRange => 0x08
  | .faulted => 0x09

/-- A flag as the bit of a word it stands in. -/
def flagBit (b : Bool) (at_ : Nat) : Word := (BitVec.ofBool b).setWidth 32 <<< at_

/-- R33: STATUS = FAULT | KEY_VALID<<1 | DVD_VALID<<2 | REM_VALID<<3 | ERR_CAUSE<<8 | KEY_LEN<<16 | DVD_LEN<<24. -/
def statusWord (s : State) : Word :=
  flagBit s.fault 0 ||| flagBit s.keyValid 1 ||| flagBit s.dvdValid 2 ||| flagBit s.remValid 3
    ||| s.errCause.setWidth 32 <<< 8 ||| s.keyLen.setWidth 32 <<< 16 ||| s.dvdLen.setWidth 32 <<< 24

end Sys2Proof.Machine
end

