-- ==== Sys2Proof/Machine/Operands.lean ====
section
/-!
DEFINITION. The operand forms of a command (30_encoding.md R76, R77), how a sequence lies in the lanes of a register or a
payload (R21, R24, R80), and the codec functions (40_codec.md R101 to R103).
-/

namespace Sys2Proof.Machine

/-- R76: `seqOf(opnd, L)`, the sequence form: element `i` is operand bit `i`; no bit from `L` on is read. -/
def seqOf (opnd len : Nat) : Seq := (List.range len).map fun i => opnd.testBit i

/-- R77: `intOf(opnd)`, the integer form: the sum over `j < MAX_LEN` of operand bit `j` times `2^j`. -/
def intOf (cfg : Config) (opnd : Nat) : Nat := opnd % 2 ^ cfg.maxLen

/-- A sequence of length `len` in `MAX_LEN` lanes: element `i` on lane `i`, the lanes from `len` on 0 (R21, R131, R80). -/
def fillLanes (cfg : Config) (s : Seq) (len : Nat) : Seq :=
  (List.range cfg.maxLen).map fun i => if i < len then lane s i else false

/-- The operand that carries a sequence (R76), lane `i` on bit `i`. -/
def operandOf : Seq → Nat
  | [] => 0
  | b :: rest => b.toNat + 2 * operandOf rest

/-- R101: `toInteger(s, L)`, by the loop `r = 2·r + s[i]` for `i` in `0 .. L−1`. -/
def toInteger (s : Seq) : Nat → Nat
  | 0 => 0
  | len + 1 => 2 * toInteger s len + (lane s len).toNat

/-- R102: `expand(v, W)`, element `i` is bit `W−1−i` of `v`. -/
def expand (v width : Nat) : Seq := (List.range width).map fun i => v.testBit (width - 1 - i)

/-- R103: the byte of a digit, 0x30 for 0 and 0x31 for 1 (the ASCII codes, log 13). -/
def digitChar (b : Bool) : Byte := if b then 0x31 else 0x30

/-- R103: `toDigitString(s, start, end)`, the half-open range of digits as characters. -/
def toDigitString (s : Seq) (start stop : Nat) : List Byte :=
  (List.range (stop - start)).map fun k => digitChar (lane s (start + k))

end Sys2Proof.Machine
end

