-- ==== Sys2Proof/Machine/Ops.lean ====
section
/-!
DEFINITION. The named operations on the state that the commands share: answering, taking an error (60_exceptions.md R184),
refusing while faulted (R182), leaving the fault state by reset (70_reset_and_hazards.md R210), and the register loads.
CRCDIV has no addressable memory (20_memory.md R50), so there is no memory operation.
-/

namespace Sys2Proof.Machine

/-- R12: `respond(code, payload)`: the response is delivered after all earlier ones (R70). -/
def State.respond (s : State) (code : Code) (payload : Payload) : State :=
  { s with responses := s.responses ++ [⟨code, payload⟩] }

/-- R184: FAULT and ERR_CAUSE take the error; no other state element changes. -/
def State.latchError (s : State) (code : Code) : State :=
  { s with fault := true, errCause := code.bits }

/-- R184: `raise Error(code)`, the one way an error is taken: FAULT ← 1, ERR_CAUSE ← code, `respond(code, none)`.
It saves nothing else and goes nowhere: control stays with the host. -/
def raiseError (code : Code) (s : State) : Host.Outcome State Fault Refusal :=
  .next ((s.latchError code).respond code .none)

/-- The successful end of a command that answers in its own step. -/
def respondOk (payload : Payload) (s : State) : Host.Outcome State Fault Refusal :=
  .next (s.respond .ok payload)

/-- R182: the first check of every command but RDSTAT. While FAULT = 1 the command does nothing and the response is
`(FAULTED, none)`; ERR_CAUSE keeps the first cause. -/
def unlessFaulted (s : State) (body : Host.Outcome State Fault Refusal) : Host.Outcome State Fault Refusal :=
  if s.fault then .next (s.respond .faulted .none) else body

/-- R210: RESET, the only way out of the fault state (R186): every element of R36 at its reset value. It sends no response;
the responses delivered before it and the host's further moves are not the block's registers and stay (log 15). A CRC in
flight is abandoned, and its response is never delivered (R211, log 21). -/
def State.resetBlock (s : State) : State :=
  { s with
    keySeq := List.replicate s.cfg.maxLen false, keyLen := 0, keyValid := false,
    dvdSeq := List.replicate s.cfg.maxLen false, dvdLen := 0, dvdValid := false,
    rem := 0, remValid := false, fault := false, errCause := 0,
    busy := false, wr := 0, wp := 0, wk := 0,
    abandoned := s.abandoned + s.busy.toNat }

/-- R131: the writes of LDKEY: KEY_SEQ with the lanes from `len` on 0, KEY_LEN, KEY_VALID. -/
def State.loadKey (s : State) (len : Byte) (q : Seq) : State :=
  { s with keySeq := fillLanes s.cfg q len.toNat, keyLen := len, keyValid := true }

/-- R132: the writes of LDDVD: DVD_SEQ with the lanes from `len` on 0, DVD_LEN, DVD_VALID. -/
def State.loadDvd (s : State) (len : Byte) (q : Seq) : State :=
  { s with dvdSeq := fillLanes s.cfg q len.toNat, dvdLen := len, dvdValid := true }

/-- R133: the writes of the step that accepts a CRC: the engine's copies of the operands, and BUSY. -/
def State.acceptCrc (s : State) : State :=
  { s with
    wr := toInteger s.dvdSeq s.dvdLen.toNat, wp := toInteger s.keySeq s.keyLen.toNat, wk := s.keyLen, busy := true }

end Sys2Proof.Machine
end

