-- ==== Sys2Proof/Machine/Codec.lean ====
section
/-!
DEFINITION. The codec commands (40_codec.md R104 to R106). They write no state but FAULT and ERR_CAUSE on an error (R100).
-/

namespace Sys2Proof.Machine

/-- R104: S2I. -/
def execS2i (len : Byte) (opnd : Nat) (s : State) : Host.Outcome State Fault Refusal :=
  unlessFaulted s <|
    if s.cfg.maxLen < len.toNat then raiseError .eLen s
    else respondOk (.int (toInteger (seqOf opnd len.toNat) len.toNat)) s

/-- R105: I2S; E_LEN is checked before E_RANGE (R183). -/
def execI2s (width : Byte) (opnd : Nat) (s : State) : Host.Outcome State Fault Refusal :=
  unlessFaulted s <|
    if s.cfg.maxLen < width.toNat then raiseError .eLen s
    else if 2 ^ width.toNat ≤ intOf s.cfg opnd then raiseError .eRange s
    else respondOk (.seq (fillLanes s.cfg (expand (intOf s.cfg opnd) width.toNat) width.toNat) width) s

/-- R106: DIGITS; E_LEN is checked before E_RANGE (R183). -/
def execDigits (len start stop : Byte) (opnd : Nat) (s : State) : Host.Outcome State Fault Refusal :=
  unlessFaulted s <|
    if s.cfg.maxLen < len.toNat then raiseError .eLen s
    else if ¬(start.toNat ≤ stop.toNat ∧ stop.toNat ≤ len.toNat) then raiseError .eRange s
    else respondOk (.chars (toDigitString (seqOf opnd len.toNat) start.toNat stop.toNat)) s

end Sys2Proof.Machine
end

