-- ==== Sys2Proof/Machine/Divider.lean ====
section
/-!
DEFINITION. The divider commands (41_divider.md R131, R132, R133, R143).
-/

namespace Sys2Proof.Machine

/-- R131: LDKEY; E_KEYLEN is checked before E_KEYZERO (R183). -/
def execLdkey (len : Byte) (opnd : Nat) (s : State) : Host.Outcome State Fault Refusal :=
  unlessFaulted s <|
    if len.toNat < 2 ∨ s.cfg.maxLen < len.toNat then raiseError .eKeylen s
    else if toInteger (seqOf opnd len.toNat) len.toNat = 0 then raiseError .eKeyzero s
    else respondOk .none (s.loadKey len (seqOf opnd len.toNat))

/-- R132: LDDVD. -/
def execLddvd (len : Byte) (opnd : Nat) (s : State) : Host.Outcome State Fault Refusal :=
  unlessFaulted s <|
    if s.cfg.maxLen < len.toNat then raiseError .eLen s
    else respondOk .none (s.loadDvd len (seqOf opnd len.toNat))

/-- R133: CRC, the accepting step; E_NOKEY is checked before E_NODVD (R183). An accepted CRC has no response yet: the
engine's FINISH delivers it (R141). -/
def execCrc (s : State) : Host.Outcome State Fault Refusal :=
  unlessFaulted s <|
    if s.keyValid = false then raiseError .eNokey s
    else if s.dvdValid = false then raiseError .eNodvd s
    else .next s.acceptCrc

/-- R143: RDREM. -/
def execRdrem (s : State) : Host.Outcome State Fault Refusal :=
  unlessFaulted s <|
    if s.remValid = false then raiseError .eNorem s
    else respondOk (.int s.rem) s

end Sys2Proof.Machine
end

