-- ==== Sys2Proof/Machine/System.lean ====
section
/-!
DEFINITION. The system commands (42_system.md R170, R171).
-/

namespace Sys2Proof.Machine

/-- R170: NOP responds OK with no payload. -/
def execNop (s : State) : Host.Outcome State Fault Refusal :=
  unlessFaulted s (respondOk .none s)

/-- R171: RDSTAT responds with the STATUS word. It is the one command executed while FAULT = 1 (R182), and it clears
nothing. -/
def execRdstat (s : State) : Host.Outcome State Fault Refusal :=
  respondOk (.status (statusWord s)) s

end Sys2Proof.Machine
end

