-- ==== Sys2Proof/Machine/Dispatch.lean ====
section
/-!
DEFINITION. One arm per command of 30_encoding.md R75.
-/

namespace Sys2Proof.Machine

/-- The meaning of a command on the state that has taken it from the channel. -/
def exec (i : Instr) (s : State) : Host.Outcome State Fault Refusal :=
  match i with
  | .nop => Sys2Proof.Machine.execNop s
  | .ldkey len opnd => Sys2Proof.Machine.execLdkey len opnd s
  | .lddvd len opnd => Sys2Proof.Machine.execLddvd len opnd s
  | .crc => Sys2Proof.Machine.execCrc s
  | .rdrem => Sys2Proof.Machine.execRdrem s
  | .rdstat => Sys2Proof.Machine.execRdstat s
  | .s2i len opnd => Sys2Proof.Machine.execS2i len opnd s
  | .i2s width opnd => Sys2Proof.Machine.execI2s width opnd s
  | .digits len start stop opnd => Sys2Proof.Machine.execDigits len start stop opnd s

end Sys2Proof.Machine
end

