-- ==== Sys2Proof/Machine/Division.lean ====
section
/-!
DEFINITION. The division over GF(2) as functions on numbers: the guard and the body of the loop, the loop, and the source's
algorithm as one total function (41_divider.md R134).
-/

namespace Sys2Proof.Machine

/-- R140: the loop goes on, tested in the order written: `r ≠ 0 and p ≠ 0 and bitLength(r) ≥ bitLength(p)`. -/
def divGuard (r p : Nat) : Bool := r != 0 && p != 0 && decide (bitLength p ≤ bitLength r)

/-- R140: `r XOR (p << (bitLength(r) − bitLength(p)))`. -/
def divStep (r p : Nat) : Nat := r ^^^ (p <<< (bitLength r - bitLength p))

/-- The loop of R134 on at most `fuel` turns. -/
def divLoop : Nat → Nat → Nat → Nat
  | 0, r, _ => r
  | fuel + 1, r, p => if divGuard r p then divLoop fuel (divStep r p) p else r

/-- R134: `computeRemainder(k, kl, d, dl)`. Each turn of the loop makes `bitLength(r)` smaller (R144), so `bitLength(r)`
turns are enough. -/
def computeRemainder (k : Seq) (kl : Nat) (d : Seq) (dl : Nat) : Nat :=
  divLoop (bitLength (toInteger d dl)) (toInteger d dl) (toInteger k kl) % 2 ^ (kl - 1)

/-- How many turns the loop takes, on at most `fuel` (R144). -/
def divTurns : Nat → Nat → Nat → Nat
  | 0, _, _ => 0
  | fuel + 1, r, p => if divGuard r p then divTurns fuel (divStep r p) p + 1 else 0

/-- The number `n` of ITERATE steps of a CRC (R142, R144). -/
def iterateCount (k : Seq) (kl : Nat) (d : Seq) (dl : Nat) : Nat :=
  divTurns (bitLength (toInteger d dl)) (toInteger d dl) (toInteger k kl)

end Sys2Proof.Machine
end

