-- ==== Sys2Proof/Machine/Engine.lean ====
section
/-!
DEFINITION. The engine: one iteration of the division, and the step that ends it (41_divider.md R140, R141).
-/

namespace Sys2Proof.Machine

/-- R140: ITERATE is enabled. -/
def State.iterateEnabled (s : State) : Bool := s.busy && divGuard s.wr s.wp

/-- R141: FINISH is enabled. -/
def State.finishEnabled (s : State) : Bool := s.busy && !divGuard s.wr s.wp

/-- R140: what ITERATE does; nothing but WR changes and no response is sent. -/
def State.iterate (s : State) : State := { s with wr := divStep s.wr s.wp }

/-- R141: the remainder FINISH writes and answers, `WR mod 2^(WK − 1)` (log 19 on WK = 0). -/
def State.finalRemainder (s : State) : Nat := s.wr % 2 ^ (s.wk.toNat - 1)

/-- R141: the writes of FINISH; WR, WP and WK keep their values. -/
def State.finishWrites (s : State) : State := { s with rem := s.finalRemainder, remValid := true, busy := false }

/-- R141: FINISH, with the CRC's response. -/
def State.finish (s : State) : State := s.finishWrites.respond .ok (.int s.finalRemainder)

/-- The engine's step while BUSY = 1: exactly one of ITERATE and FINISH is enabled (R140). -/
def engineStep (s : State) : Host.Outcome State Fault Refusal :=
  .next (if divGuard s.wr s.wp then s.iterate else s.finish)

end Sys2Proof.Machine
end

