-- ==== Sys2Proof/Machine/Channel.lean ====
section
/-!
DEFINITION. The command channel: what becomes of the host's next move (30_encoding.md R70, 60_exceptions.md R183,
70_reset_and_hazards.md R214, R220).
-/

namespace Sys2Proof.Machine

/-- A word that is no command: the fault-state refusal comes first, then E_ILLEGAL (R74, R82, R183). -/
def runIllegal (s : State) : Host.Outcome State Fault Refusal :=
  unlessFaulted s (raiseError .eIllegal s)

/-- A command that the block takes. Every command but RDSTAT makes the fault-state check first, and so does a word that is
no command, so the checks come in the order of R183: fault state, decode, the command's own. -/
def runCommand (w : Word) (opnd : Nat) (s : State) : Host.Outcome State Fault Refusal :=
  match decode w opnd with
  | .ok i => exec i s
  | .error _ => runIllegal s

/-- The host's present move is done; `rest` are its further moves. -/
def State.withHost (s : State) (rest : List HostMove) : State := { s with host := rest }

/-- R220, row "reset", enabled always (R210, R211). -/
def moveReset (rest : List HostMove) (s : State) : Host.Outcome State Fault Refusal :=
  .next (s.withHost rest).resetBlock

/-- R214: a command presented while BUSY = 1 is held, and stays the host's next move. Meanwhile the host can still wait and
reset (R220): a wait or a reset listed right behind the held command is made while it is held (DESIGN CHOICE, log 22). The
engine steps, and the hold ends with FINISH; or the host resets, which clears BUSY, and the command can be taken next. -/
def moveHeld (w : Word) (opnd : Nat) (rest : List HostMove) (s : State) : Host.Outcome State Fault Refusal :=
  match rest with
  | .reset :: later => moveReset (.command w opnd :: later) s
  | .wait :: later => engineStep (s.withHost (.command w opnd :: later))
  | .command _ _ :: _ => engineStep s
  | [] => engineStep s

/-- R220, rows "issue a command" and "issue CRC", with R214: while BUSY = 1 the command is held; otherwise it is taken and
run. -/
def moveCommand (w : Word) (opnd : Nat) (rest : List HostMove) (s : State) : Host.Outcome State Fault Refusal :=
  if s.busy then moveHeld w opnd rest s else runCommand w opnd (s.withHost rest)

/-- R220, row "wait", enabled while BUSY = 1: the engine steps. While BUSY = 0 a waiting host is stuck (R211, log 4). -/
def moveWait (rest : List HostMove) (s : State) : Host.Outcome State Fault Refusal :=
  if s.busy then engineStep (s.withHost rest) else .fault .waitStuck

/-- The host has no further move: the engine ends a CRC in flight, and with none the block holds its state unchanged
(R196; log 5). -/
def moveNone (s : State) : Host.Outcome State Fault Refusal :=
  if s.busy then engineStep s else .next s

/-- While BUSY = 1: the moves left after the reset, where the host resets in the next step, be it with a command held or not
(R210, R214; log 22). -/
def resetWhileBusy : List HostMove → Option (List HostMove)
  | .reset :: rest => some rest
  | .command w opnd :: .reset :: rest => some (.command w opnd :: rest)
  | _ => none

/-- The moves left after the reset, where the next step is a reset. -/
def State.resetMove (s : State) : Option (List HostMove) :=
  if s.busy then resetWhileBusy s.host
  else
    match s.host with
    | .reset :: rest => some rest
    | _ => none

/-- While BUSY = 1: the moves left after a step of the engine's; a wait is used up, a held command stays (R214, R220). -/
def movesAfterTurn : List HostMove → List HostMove
  | .wait :: rest => rest
  | .command w opnd :: .wait :: rest => .command w opnd :: rest
  | moves => moves

/-- The state in which the host presents a command that the next step takes: it is the host's next move and no CRC is in
flight (log 8). -/
def State.presentCommand (s : State) (w : Word) (opnd : Nat) : State :=
  { s with host := .command w opnd :: s.host, busy := false }

end Sys2Proof.Machine
end

