-- ==== Sys2Proof/Machine/Step.lean ====
section
/-!
DEFINITION. One step of the machine: the host's next move, or the engine's step while a command is held or the host waits
(70_reset_and_hazards.md R214, R220; 60_exceptions.md R188).
-/

namespace Sys2Proof.Machine

/-- One step. Which agent moves is plain data: the host's list of moves and BUSY (log 2). -/
def step (s : State) : Host.Outcome State Fault Refusal :=
  match s.host with
  | .command w opnd :: rest => moveCommand w opnd rest s
  | .wait :: rest => moveWait rest s
  | .reset :: rest => moveReset rest s
  | [] => moveNone s

/-- `s` with an instruction, given as one number of `nbits` bits, presented by the host so that the next step takes it
(log 8). -/
def State.withFetchWord (s : State) (nbits w : Nat) : State :=
  s.presentCommand (tableWord nbits w) (tableOperand nbits w)

end Sys2Proof.Machine
end

