-- ==== Sys2Proof/Machine/Assembly.lean ====
section
/-!
DEFINITION. The assembler's notation for command sequences (30_encoding.md R84, R85): one command a line, the mnemonic,
then its operands separated by commas, `;` starting a comment. Every mnemonic stands for one command word, and RESET for
the reset action. The block itself never sees this text; it says which moves of the host a program's line stands for.
-/

namespace Sys2Proof.Machine

/-- Why a line is no command (R84: an assembly error is not a command). -/
inductive AsmError where
  | unknownMnemonic
  | wrongNumberOfOperands
  | notANumber
  /-- `L`, `W`, `start` and `end` are 0 to 255 -/
  | fieldAbove255
  | notADigitString
  /-- a string of length other than `L` -/
  | stringLengthNotL
  /-- an integer literal that no `MAX_LEN`-bit operand carries (log 16) -/
  | integerTooWide
  deriving DecidableEq, Repr

/-- A line's content after its characters have been read. -/
inductive AsmLine where
  | nop
  | ldkey (len : Nat) (seq : Seq)
  | lddvd (len : Nat) (seq : Seq)
  | crc
  | rdrem
  | rdstat
  | s2i (len : Nat) (seq : Seq)
  | i2s (width value : Nat)
  | digits (len start stop : Nat) (seq : Seq)
  | reset
  deriving DecidableEq, Repr

/-- R84: an 8-bit number of a line. -/
def asmField (n : Nat) : Except AsmError Byte :=
  if n < 256 then .ok (BitVec.ofNat 8 n) else .error .fieldAbove255

/-- R84: a string of exactly `len` digits assembles to the operand by R76, with the bits from `len` on 0. An operand has
`MAX_LEN` bits, so of a string longer than `MAX_LEN` (a line that raises an error when it is run) the first ones stand. -/
def asmSequence (cfg : Config) (len : Nat) (s : Seq) : Except AsmError Nat :=
  if s.length = len then .ok (operandOf s % 2 ^ cfg.maxLen) else .error .stringLengthNotL

/-- R84: an integer literal assembles to the operand by R77. -/
def asmInteger (cfg : Config) (v : Nat) : Except AsmError Nat :=
  if v < 2 ^ cfg.maxLen then .ok v else .error .integerTooWide

/-- The host's move that sends a command. -/
def moveOf (i : Instr) : HostMove := .command (encodeWord i) (encodeOperand i)

/-- R84, R85: the one move a line stands for. -/
def assemble (cfg : Config) : AsmLine → Except AsmError HostMove
  | .nop => .ok (moveOf .nop)
  | .ldkey len s => do return moveOf (.ldkey (← asmField len) (← asmSequence cfg len s))
  | .lddvd len s => do return moveOf (.lddvd (← asmField len) (← asmSequence cfg len s))
  | .crc => .ok (moveOf .crc)
  | .rdrem => .ok (moveOf .rdrem)
  | .rdstat => .ok (moveOf .rdstat)
  | .s2i len s => do return moveOf (.s2i (← asmField len) (← asmSequence cfg len s))
  | .i2s width v => do return moveOf (.i2s (← asmField width) (← asmInteger cfg v))
  | .digits len start stop s => do
    return moveOf (.digits (← asmField len) (← asmField start) (← asmField stop) (← asmSequence cfg len s))
  | .reset => .ok .reset

/-- Blanks between the parts of a line (log 16). -/
def isBlank (c : Char) : Bool := c == ' ' || c == '\t'

/-- A text without the blanks at its two ends. -/
def trimBlanks (cs : List Char) : List Char := ((cs.dropWhile isBlank).reverse.dropWhile isBlank).reverse

/-- The parts of a text between its commas. -/
def splitCommas : List Char → List (List Char)
  | [] => [[]]
  | c :: cs =>
    match splitCommas cs with
    | [] => [[c]]
    | part :: parts => if c == ',' then [] :: part :: parts else (c :: part) :: parts

/-- The value of one digit character. -/
def digitValue (c : Char) : Option Nat :=
  if '0' ≤ c ∧ c ≤ '9' then some (c.toNat - '0'.toNat)
  else if 'a' ≤ c ∧ c ≤ 'f' then some (c.toNat - 'a'.toNat + 10)
  else if 'A' ≤ c ∧ c ≤ 'F' then some (c.toNat - 'A'.toNat + 10)
  else none

/-- The number that digits of a base spell, after `acc`. -/
def readDigits (base acc : Nat) : List Char → Option Nat
  | [] => some acc
  | c :: cs =>
    match digitValue c with
    | some d => if d < base then readDigits base (base * acc + d) cs else none
    | none => none

/-- A literal of at least one digit. -/
def readLiteral (base : Nat) (cs : List Char) : Except AsmError Nat :=
  match cs, readDigits base 0 cs with
  | _ :: _, some v => .ok v
  | _, _ => .error .notANumber

/-- R84: a decimal number. -/
def readNumber (cs : List Char) : Except AsmError Nat := readLiteral 10 cs

/-- R84: a decimal, `0x` hexadecimal or `0b` binary literal. -/
def readInteger : List Char → Except AsmError Nat
  | '0' :: 'x' :: cs => readLiteral 16 cs
  | '0' :: 'b' :: cs => readLiteral 2 cs
  | cs => readLiteral 10 cs

/-- The digits of a quoted string up to its closing quote, which must be the text's last character. -/
def readQuoted : List Char → Except AsmError Seq
  | ['"'] => .ok []
  | '0' :: cs => do return false :: (← readQuoted cs)
  | '1' :: cs => do return true :: (← readQuoted cs)
  | _ => .error .notADigitString

/-- R84: a double-quoted digit string. -/
def readSequence : List Char → Except AsmError Seq
  | '"' :: cs => readQuoted cs
  | _ => .error .notADigitString

/-- A mnemonic with its operands. -/
def readCommand (mnemonic : List Char) (operands : List (List Char)) : Except AsmError AsmLine :=
  if mnemonic = "NOP".toList then
    match operands with
    | [] => .ok .nop
    | _ => .error .wrongNumberOfOperands
  else if mnemonic = "LDKEY".toList then
    match operands with
    | [l, q] => do return .ldkey (← readNumber l) (← readSequence q)
    | _ => .error .wrongNumberOfOperands
  else if mnemonic = "LDDVD".toList then
    match operands with
    | [l, q] => do return .lddvd (← readNumber l) (← readSequence q)
    | _ => .error .wrongNumberOfOperands
  else if mnemonic = "CRC".toList then
    match operands with
    | [] => .ok .crc
    | _ => .error .wrongNumberOfOperands
  else if mnemonic = "RDREM".toList then
    match operands with
    | [] => .ok .rdrem
    | _ => .error .wrongNumberOfOperands
  else if mnemonic = "RDSTAT".toList then
    match operands with
    | [] => .ok .rdstat
    | _ => .error .wrongNumberOfOperands
  else if mnemonic = "S2I".toList then
    match operands with
    | [l, q] => do return .s2i (← readNumber l) (← readSequence q)
    | _ => .error .wrongNumberOfOperands
  else if mnemonic = "I2S".toList then
    match operands with
    | [w, v] => do return .i2s (← readNumber w) (← readInteger v)
    | _ => .error .wrongNumberOfOperands
  else if mnemonic = "DIGITS".toList then
    match operands with
    | [l, a, b, q] => do return .digits (← readNumber l) (← readNumber a) (← readNumber b) (← readSequence q)
    | _ => .error .wrongNumberOfOperands
  else if mnemonic = "RESET".toList then
    match operands with
    | [] => .ok .reset
    | _ => .error .wrongNumberOfOperands
  else .error .unknownMnemonic

/-- The text after a mnemonic as its operands: none where it is empty. -/
def readOperands (cs : List Char) : List (List Char) :=
  match trimBlanks cs with
  | [] => []
  | text => (splitCommas text).map trimBlanks

/-- R84: what one line of text stands for; nothing where it holds only blanks and a comment. -/
def assembleText (cfg : Config) (line : String) : Except AsmError (Option HostMove) :=
  let text := trimBlanks (line.toList.takeWhile (· != ';'))
  match text with
  | [] => .ok none
  | _ => do
    let parsed ← readCommand (text.takeWhile (!isBlank ·)) (readOperands (text.dropWhile (!isBlank ·)))
    return some (← assemble cfg parsed)

end Sys2Proof.Machine
end

