-- ==== Sys2Proof/Safety.lean ====
section
/-!
DEFINITION. What counts as a legal state (10_state.md R32 with the widths of R21 to R31), and when a run has ended and has
succeeded (70_reset_and_hazards.md R221).
-/

namespace Sys2Proof.Machine

/-- The lanes of a sequence register: `MAX_LEN` of them, those from its length on 0 (R21, R24; R32 item 1). -/
abbrev LanesHold (maxLen : Nat) (s : Seq) (len : Nat) : Prop :=
  s.length = maxLen ∧ ∀ i < maxLen, len ≤ i → lane s i = false

/-- R32 items 1 to 3 for KEY. -/
abbrev State.KeyInv (s : State) : Prop :=
  LanesHold s.cfg.maxLen s.keySeq s.keyLen.toNat ∧
  (s.keyValid = true →
    2 ≤ s.keyLen.toNat ∧ s.keyLen.toNat ≤ s.cfg.maxLen ∧ toInteger s.keySeq s.keyLen.toNat ≠ 0) ∧
  (s.keyValid = false → s.keyLen = 0 ∧ ∀ i < s.cfg.maxLen, lane s.keySeq i = false)

/-- R32 items 1 and 3 for DVD, with the length's range (R25). -/
abbrev State.DvdInv (s : State) : Prop :=
  LanesHold s.cfg.maxLen s.dvdSeq s.dvdLen.toNat ∧
  s.dvdLen.toNat ≤ s.cfg.maxLen ∧
  (s.dvdValid = false → s.dvdLen = 0 ∧ ∀ i < s.cfg.maxLen, lane s.dvdSeq i = false)

/-- R32 item 4, for a CRC in flight. -/
abbrev State.BusyInv (s : State) : Prop :=
  s.busy = true →
    s.wp ≠ 0 ∧ 2 ≤ s.wk.toNat ∧ s.wk.toNat ≤ s.cfg.maxLen ∧ bitLength s.wp ≤ s.wk.toNat ∧
    bitLength s.wr ≤ s.cfg.maxLen ∧ s.fault = false

/-- R32 item 5. -/
abbrev State.FaultInv (s : State) : Prop :=
  (s.fault = false → s.errCause = 0) ∧ (s.fault = true → 1 ≤ s.errCause.toNat ∧ s.errCause.toNat ≤ 8)

/-- R32 item 6. -/
abbrev State.RemInv (s : State) : Prop :=
  s.rem < 2 ^ (s.cfg.maxLen - 1) ∧ (s.remValid = false → s.rem = 0)

/-- The widths of the working registers, in every state (R31, R8). -/
abbrev State.WorkInv (s : State) : Prop :=
  s.wr < 2 ^ s.cfg.maxLen ∧ s.wp < 2 ^ s.cfg.maxLen ∧ s.wk.toNat ≤ s.cfg.maxLen

/-- The invariants of R32, with the widths of R27 and R31. -/
abbrev State.Inv (s : State) : Prop :=
  s.KeyInv ∧ s.DvdInv ∧ s.BusyInv ∧ s.FaultInv ∧ s.RemInv ∧ s.WorkInv

/-- R70: how many commands the block has accepted: each has its response, or is the CRC in flight, or is a CRC that a reset has
abandoned (R211). -/
def State.acceptedCommands (s : State) : Nat := s.responses.length + s.busy.toNat + s.abandoned

/-- R221 item 3: every accepted command has received its response. -/
def State.allAnswered (s : State) : Bool := s.responses.length == s.acceptedCommands

/-- R221: a run has ended when the host has made its last move, no CRC is in flight, and every accepted command has received
its response. Item 1 speaks of the host's last command; that no move of any kind is left, so that a reset or a wait still listed
keeps the run from having ended, is the model's choice (DESIGN CHOICE, log 23). -/
def State.runEnded (s : State) : Bool := s.host.isEmpty && !s.busy && s.allAnswered

/-- R221: a run that ends with FAULT = 1 has ended in a fault, so success takes FAULT = 0. -/
def State.runSucceeded (s : State) : Bool := s.runEnded && !s.fault

end Sys2Proof.Machine
end

