-- ==== Sys2Proof/Safety/Reference.lean ====
section
/-!
DEFINITION. What the division is compared with in claims: polynomials over GF(2) (41_divider.md R147), and the standard
most-significant-bit-first CRC register (R152, log 17). The machine uses nothing of this file.
-/

namespace Sys2Proof.Machine

open Polynomial

/-- R147: a sequence of length `len` as the polynomial `Σ_{i<len} s[i]·x^(len−1−i)` over GF(2). -/
noncomputable def seqPoly (s : Seq) (len : Nat) : (ZMod 2)[X] :=
  ∑ i ∈ Finset.range len, if lane s i then X ^ (len - 1 - i) else 0

/-- R147: an integer as a polynomial, bit `j` the coefficient of `x^j`. -/
noncomputable def natPoly (v : Nat) : (ZMod 2)[X] :=
  ∑ j ∈ Finset.range (bitLength v), if v.testBit j then X ^ j else 0

/-- R152: one data bit into the CRC register of width `width` with generator `gen` (its top term left out): the register
shifts left, and the generator is added when the bit shifted out differs from the data bit. -/
def registerShift (width gen reg : Nat) (b : Bool) : Nat :=
  if reg.testBit (width - 1) != b then (2 * reg % 2 ^ width) ^^^ gen else 2 * reg % 2 ^ width

/-- R152: the standard CRC of a data sequence: initial register 0, no reflection, final XOR 0. -/
def registerCrc (width gen : Nat) (data : Seq) : Nat := data.foldl (registerShift width gen) 0

end Sys2Proof.Machine
end

