-- ==== Sys2Proof/WellFormed.lean ====
section
/-!
DEFINITION. When a command is well formed on an instance of the block: its operand has MAX_LEN bits (30_encoding.md R70).

The fields A, B and C are 8 bits by their type, and every value of them decodes (R73): a length above MAX_LEN is no
ill-formed command but one that raises an error (R131, R132, R104, R105, R106).
-/

namespace Sys2Proof

/-- R70, R76, R77: an operand is a `MAX_LEN`-bit vector, a natural below `2^MAX_LEN` (R9). -/
def operandFits (cfg : Config) (opnd : Nat) : Bool := decide (opnd < 2 ^ cfg.maxLen)

/-- The check of a whole command. -/
def Instr.wellFormed (cfg : Config) : Instr → Bool
  | .nop => true
  | .ldkey _ opnd => operandFits cfg opnd
  | .lddvd _ opnd => operandFits cfg opnd
  | .crc => true
  | .rdrem => true
  | .rdstat => true
  | .s2i _ opnd => operandFits cfg opnd
  | .i2s _ opnd => operandFits cfg opnd
  | .digits _ _ _ opnd => operandFits cfg opnd

end Sys2Proof
end

