-- ==== Sys2Proof/Certificates/Slice0/Obligations.lean ====
section
/-!
DEFINITION. The statements about CRCDIV for the provers. MAX_LEN is `s.cfg.maxLen`: a statement over all states is one over
every legal value of it (log 1).
-/

namespace Sys2Proof.Says

open Sys2Proof.Machine

/-- `respond(code, payload)` and nothing else. -/
def answered (s : State) (c : Code) (p : Payload) : State := { s with responses := s.responses ++ [⟨c, p⟩] }

/-- R184: what `raise Error(code)` leaves. -/
def raised (s : State) (c : Code) : State :=
  { s with fault := true, errCause := c.bits, responses := s.responses ++ [⟨c, .none⟩] }

/-- The host presents a command and no CRC is in flight (R220). -/
def presents (s : State) (w : Word) (o : Nat) (rest : List HostMove) : Prop :=
  s.busy = false ∧ s.host = .command w o :: rest

/-- R74: the fields that an opcode does not use (it uses those marked true) are 0. -/
def unusedZero (a b c : Bool) (w : Word) : Prop :=
  (a = false → fieldA w = 0) ∧ (b = false → fieldB w = 0) ∧ (c = false → fieldC w = 0)

/-- The encoding of one opcode with the fields it uses: a presented word with that opcode runs the command, and with an
unused field that is not 0 it raises E_ILLEGAL, or is FAULTED in the fault state. -/
def encoded (op : Byte) (a b c : Bool) (command : Word → Nat → Instr) : Prop :=
  ∀ (s : State) (w : Word) (o : Nat) (rest : List HostMove), presents s w o rest → fieldOP w = op →
    (unusedZero a b c w → step s = exec (command w o) { s with host := rest }) ∧
    (¬unusedZero a b c w → s.fault = false → step s = .next (raised { s with host := rest } .eIllegal)) ∧
    (¬unusedZero a b c w → s.fault = true → step s = .next (answered { s with host := rest } .faulted .none))

/-- R182 for one command. -/
def refusedWhileFaulted (i : Instr) : Prop :=
  ∀ s : State, s.fault = true → exec i s = .next (answered s .faulted .none)

/-- The state in which the engine moves: a wait of the host's is used up, be it with a command held or not, and a command that
the host presents is held (R214, R220; log 22); a host that resets is no turn of the engine's. -/
def engineTurn (s u : State) : Prop :=
  (s.host = [] ∧ u = s) ∨ (∃ rest, s.host = .wait :: rest ∧ u = { s with host := rest }) ∨
  (∃ w o, s.host = [.command w o] ∧ u = s) ∨
  (∃ w o w' o' rest, s.host = .command w o :: .command w' o' :: rest ∧ u = s) ∨
  (∃ w o rest, s.host = .command w o :: .wait :: rest ∧ u = { s with host := .command w o :: rest })

/-- R181: the codes besides OK that a command can answer. -/
def errorCodes : Instr → List Code
  | .nop => [.faulted]
  | .ldkey _ _ => [.eKeylen, .eKeyzero, .faulted]
  | .lddvd _ _ => [.eLen, .faulted]
  | .crc => [.eNokey, .eNodvd, .faulted]
  | .rdrem => [.eNorem, .faulted]
  | .rdstat => []
  | .s2i _ _ => [.eLen, .faulted]
  | .i2s _ _ => [.eLen, .eRange, .faulted]
  | .digits _ _ _ _ => [.eLen, .eRange, .faulted]

/-- R34: the commands that only read. -/
def readsOnly : Instr → Bool
  | .rdrem => true
  | .rdstat => true
  | .s2i _ _ => true
  | .i2s _ _ => true
  | .digits _ _ _ _ => true
  | .nop => false
  | .ldkey _ _ => false
  | .lddvd _ _ => false
  | .crc => false

/-- R34: LDKEY's column. -/
def writesKey : Instr → Bool
  | .ldkey _ _ => true
  | _ => false

/-- R34: LDDVD's column. -/
def writesDvd : Instr → Bool
  | .lddvd _ _ => true
  | _ => false

/-- R34: the registers with an `r` in the command's column hold the same in two states of one instance. -/
def readsAgree (i : Instr) (s s' : State) : Prop :=
  s.cfg = s'.cfg ∧ s.fault = s'.fault ∧
  match i with
  | .crc => s.keySeq = s'.keySeq ∧ s.keyLen = s'.keyLen ∧ s.keyValid = s'.keyValid ∧
      s.dvdSeq = s'.dvdSeq ∧ s.dvdLen = s'.dvdLen ∧ s.dvdValid = s'.dvdValid
  | .rdrem => s.rem = s'.rem ∧ s.remValid = s'.remValid
  | .rdstat => s.keyLen = s'.keyLen ∧ s.keyValid = s'.keyValid ∧ s.dvdLen = s'.dvdLen ∧ s.dvdValid = s'.dvdValid ∧
      s.remValid = s'.remValid ∧ s.errCause = s'.errCause
  | _ => True

/-- The lanes that a sequence of length `len` carried by an operand takes in a register (R76, R131, R132). -/
def lanesOfOperand (cfg : Config) (opnd len : Nat) : Seq :=
  (List.range cfg.maxLen).map fun i => if i < len then opnd.testBit i else false

/-- R72, R75: what the fields of a word with a command's opcode are, those not used being 0. -/
def fieldsMean (w : Word) : Instr → Prop
  | .nop => fieldOP w = 0x01 ∧ fieldA w = 0 ∧ fieldB w = 0 ∧ fieldC w = 0
  | .ldkey len _ => fieldOP w = 0x02 ∧ fieldA w = len ∧ fieldB w = 0 ∧ fieldC w = 0
  | .lddvd len _ => fieldOP w = 0x03 ∧ fieldA w = len ∧ fieldB w = 0 ∧ fieldC w = 0
  | .crc => fieldOP w = 0x04 ∧ fieldA w = 0 ∧ fieldB w = 0 ∧ fieldC w = 0
  | .rdrem => fieldOP w = 0x05 ∧ fieldA w = 0 ∧ fieldB w = 0 ∧ fieldC w = 0
  | .rdstat => fieldOP w = 0x06 ∧ fieldA w = 0 ∧ fieldB w = 0 ∧ fieldC w = 0
  | .s2i len _ => fieldOP w = 0x07 ∧ fieldA w = len ∧ fieldB w = 0 ∧ fieldC w = 0
  | .i2s width _ => fieldOP w = 0x08 ∧ fieldA w = width ∧ fieldB w = 0 ∧ fieldC w = 0
  | .digits len start stop _ => fieldOP w = 0x09 ∧ fieldA w = len ∧ fieldB w = start ∧ fieldC w = stop

/-- The mnemonic of R75 that a command stands for. -/
def mnemonic : Instr → String
  | .nop => "NOP"
  | .ldkey _ _ => "LDKEY"
  | .lddvd _ _ => "LDDVD"
  | .crc => "CRC"
  | .rdrem => "RDREM"
  | .rdstat => "RDSTAT"
  | .s2i _ _ => "S2I"
  | .i2s _ _ => "I2S"
  | .digits _ _ _ _ => "DIGITS"

end Sys2Proof.Says

open Sys2Proof Sys2Proof.Machine Sys2Proof.Says

/-! ## Reset and the invariants -/

/-- R210, R36: the host may reset in every state, also with a command held (R214; log 22), and reset sets every element to its reset value in one step, sends no
response, and leaves nothing of the fault state or of a CRC in flight; the STATUS word is then 0, and no other step leads
out of the fault state. That the host's further moves and the responses delivered before stay as they are is the model's
choice (log 15), and so is the count of the CRCs abandoned (log 21). -/
def Obligations.ResetSetsEveryElement : Prop :=
  (∀ (s : State) (rest : List HostMove), s.host = .reset :: rest → s.resetMove = some rest) ∧
  (∀ (s : State) (w : Word) (o : Nat) (rest : List HostMove), s.busy = true →
    s.host = .command w o :: .reset :: rest → s.resetMove = some (.command w o :: rest)) ∧
  (∀ (s : State) (rest : List HostMove), s.resetMove = some rest →
    step s = .next { cfg := s.cfg, host := rest, responses := s.responses,
                     keySeq := List.replicate s.cfg.maxLen false, keyLen := 0, keyValid := false,
                     dvdSeq := List.replicate s.cfg.maxLen false, dvdLen := 0, dvdValid := false,
                     rem := 0, remValid := false, fault := false, errCause := 0,
                     busy := false, wr := 0, wp := 0, wk := 0,
                     abandoned := s.abandoned + s.busy.toNat }) ∧
  (∀ cfg : Config, statusWord (State.resetOf cfg) = 0) ∧
  (∀ s t : State, s.fault = true → step s = .next t → t.fault = false → ∃ rest, s.resetMove = some rest)

/-- The reset state of every instance meets the invariants (the base of R32). -/
def Obligations.ResetStateMeetsTheInvariants : Prop :=
  ∀ cfg : Config, (State.resetOf cfg).Inv

/-- R32: from every state that meets the invariants, a step leads to one that does, and no step changes MAX_LEN. -/
def Obligations.StepKeepsTheInvariants : Prop :=
  ∀ s t : State, s.Inv → step s = .next t → t.Inv ∧ t.cfg = s.cfg

/-! ## Encoding -/

/-- Encoding a command and decoding its word and operand gives the command back; and every word that decodes is the word of
the command it decodes to, so each command has one word. The operand comes back where the command reads one. -/
def Obligations.EncodeAndDecodeAgree : Prop :=
  (∀ i : Instr, decode (encodeWord i) (encodeOperand i) = .ok i) ∧
  (∀ (w : Word) (o : Nat) (i : Instr), decode w o = .ok i →
    encodeWord i = w ∧ (i = .nop ∨ i = .crc ∨ i = .rdrem ∨ i = .rdstat ∨ encodeOperand i = o))

/-- R72: the four fields are the four bytes of the word, the word is nothing but them, and a word that decodes to a command
has the command's length, width or indexes in its fields and 0 in the others. -/
def Obligations.FieldsAreTheWordsBytes : Prop :=
  (∀ w : Word,
    (fieldOP w).toNat = w.toNat % 2 ^ 8 ∧ (fieldA w).toNat = w.toNat / 2 ^ 8 % 2 ^ 8 ∧
    (fieldB w).toNat = w.toNat / 2 ^ 16 % 2 ^ 8 ∧ (fieldC w).toNat = w.toNat / 2 ^ 24 % 2 ^ 8) ∧
  (∀ w : Word, commandWord (fieldOP w) (fieldA w) (fieldB w) (fieldC w) = w) ∧
  (∀ op a b c : Byte,
    (commandWord op a b c).toNat = op.toNat + 2 ^ 8 * a.toNat + 2 ^ 16 * b.toNat + 2 ^ 24 * c.toNat) ∧
  (∀ (w : Word) (o : Nat) (i : Instr), decode w o = .ok i → fieldsMean w i)

/-- R82: the decoder is total, by the cases of its pseudocode, whatever the operand; ILLEGAL is an answer that is no command
and, after the fault check, raises E_ILLEGAL. -/
def Obligations.DecodeFollowsItsPseudocode : Prop :=
  ∀ (w : Word) (o : Nat),
    let A := fieldA w; let B := fieldB w; let C := fieldC w
    let illegal := ∀ i : Instr, decode w o ≠ .ok i
    (fieldOP w = 0x01 → if A ||| B ||| C ≠ 0 then illegal else decode w o = .ok .nop) ∧
    (fieldOP w = 0x02 → if B ||| C ≠ 0 then illegal else decode w o = .ok (.ldkey A o)) ∧
    (fieldOP w = 0x03 → if B ||| C ≠ 0 then illegal else decode w o = .ok (.lddvd A o)) ∧
    (fieldOP w = 0x04 → if A ||| B ||| C ≠ 0 then illegal else decode w o = .ok .crc) ∧
    (fieldOP w = 0x05 → if A ||| B ||| C ≠ 0 then illegal else decode w o = .ok .rdrem) ∧
    (fieldOP w = 0x06 → if A ||| B ||| C ≠ 0 then illegal else decode w o = .ok .rdstat) ∧
    (fieldOP w = 0x07 → if B ||| C ≠ 0 then illegal else decode w o = .ok (.s2i A o)) ∧
    (fieldOP w = 0x08 → if B ||| C ≠ 0 then illegal else decode w o = .ok (.i2s A o)) ∧
    (fieldOP w = 0x09 → decode w o = .ok (.digits A B C o)) ∧
    (fieldOP w = 0x00 ∨ 0x0A ≤ (fieldOP w).toNat → illegal) ∧
    (illegal → ∀ (s : State) (rest : List HostMove), presents s w o rest →
      step s = .next (if s.fault then answered { s with host := rest } .faulted .none
        else raised { s with host := rest } .eIllegal))

/-- R75: the map's legal rows; a word decodes to a command exactly when it is in that command's row, by match and mask, and
then its fields are those the row uses; no word is in two rows; a word of one of the two illegal rows is no command. -/
def Obligations.DecodeAcceptsTheOpcodeMapOnly : Prop :=
  opcodeTable.map (fun row => (row.mnemonic, row.pattern, row.mask)) =
    [ ("NOP", 0x00000001, 0xFFFFFFFF), ("LDKEY", 0x00000002, 0xFFFF00FF), ("LDDVD", 0x00000003, 0xFFFF00FF),
      ("CRC", 0x00000004, 0xFFFFFFFF), ("RDREM", 0x00000005, 0xFFFFFFFF), ("RDSTAT", 0x00000006, 0xFFFFFFFF),
      ("S2I", 0x00000007, 0xFFFF00FF), ("I2S", 0x00000008, 0xFFFF00FF), ("DIGITS", 0x00000009, 0x000000FF) ] ∧
  (∀ (w : Word) (o : Nat) (row : OpcodeRow), row ∈ opcodeTable →
    (w &&& row.mask = row.pattern ↔ ∃ i, decode w o = .ok i ∧ mnemonic i = row.mnemonic ∧ fieldsMean w i)) ∧
  (∀ (w : Word) (r₁ r₂ : OpcodeRow), r₁ ∈ opcodeTable → r₂ ∈ opcodeTable →
    w &&& r₁.mask = r₁.pattern → w &&& r₂.mask = r₂.pattern → r₁ = r₂) ∧
  (∀ (w : Word) (o : Nat) (i : Instr),
    w &&& 0x000000FF = 0 ∨ 0x0A ≤ (w &&& 0x000000FF).toNat → decode w o ≠ .ok i)

/-- Words written out bit by bit from the spec's encodings, one of each family (R79 and the worked examples). -/
def Obligations.WrittenWordsDecode : Prop :=
  decode 0b00000000000000000000011000000010 0x2B = .ok (.ldkey 6 0x2B) ∧
  decode 0b00000000000000000000111100000011 0x2C5 = .ok (.lddvd 15 0x2C5) ∧
  decode 0b00000000000000000000000000000100 0 = .ok .crc ∧
  decode 0b00000000000000000000000000000110 0 = .ok .rdstat ∧
  decode 0b00000000000000000000010100001000 0xE = .ok (.i2s 5 0xE) ∧
  decode 0b00000100000000010000011000001001 0x2B = .ok (.digits 6 1 4 0x2B)

/-! ## Taking a command -/

/-- When no CRC is in flight and the word presented decodes to a command, the step is that command's meaning in the state
with the move taken from the host's list (log 2). -/
def Obligations.StepRunsTheDecodedCommand : Prop :=
  ∀ (s : State) (w : Word) (o : Nat) (rest : List HostMove) (i : Instr),
    presents s w o rest → decode w o = .ok i → step s = exec i { s with host := rest }

/-- R83: a word outside the legal rows raises E_ILLEGAL, whatever the operand; in the fault state it is FAULTED (R182). No
bit of a command word is a don't-care bit: two words that decode to one command are one word. That the legal rows are the
nine of R75 and R82, where R83 speaks of ten, is the model's reading (log 20). -/
def Obligations.IllegalWordsRaise : Prop :=
  (∀ (w w' : Word) (o : Nat) (i : Instr), decode w o = .ok i → decode w' o = .ok i → w = w') ∧
  ∀ (s : State) (w : Word) (o : Nat) (rest : List HostMove), presents s w o rest →
    (∀ row ∈ opcodeTable, w &&& row.mask ≠ row.pattern) →
    (s.fault = false → step s = .next (raised { s with host := rest } .eIllegal)) ∧
    (s.fault = true → step s = .next (answered { s with host := rest } .faulted .none))

/-- R182: while FAULT = 1, a command whose word is not exactly 0x00000006 does nothing and answers FAULTED; the word
0x00000006 is executed. -/
def Obligations.FaultStateRefusesAllButRdstat : Prop :=
  ∀ (s : State) (w : Word) (o : Nat) (rest : List HostMove), presents s w o rest → s.fault = true →
    (w ≠ 0x00000006 → step s = .next (answered { s with host := rest } .faulted .none)) ∧
    (w = 0x00000006 → step s = .next (answered { s with host := rest } .ok (.status (statusWord s))))

/-- R184: whenever a step takes FAULT from 0 to 1, it is one command's step, ERR_CAUSE takes the code, the response is the
code with no payload, and no other state element changes; and whenever a step answers an error's code, FAULT was 0 and the
step did exactly this. -/
def Obligations.FaultEntryLatchesOnlyTheCause : Prop :=
  (∀ s t : State, step s = .next t → s.fault = false → t.fault = true →
    ∃ (c : Code) (w : Word) (o : Nat) (rest : List HostMove),
      presents s w o rest ∧ c ≠ .ok ∧ c ≠ .faulted ∧ t = raised { s with host := rest } c) ∧
  (∀ (s t : State) (r : Response), step s = .next t → t.responses = s.responses ++ [r] → r.code ≠ .ok →
    r.code ≠ .faulted → s.fault = false ∧ ∃ (w : Word) (o : Nat) (rest : List HostMove),
      presents s w o rest ∧ t = raised { s with host := rest } r.code)

/-- R186: FAULT = 1 ends by reset only; until then no command clears or overwrites ERR_CAUSE, and while no CRC is in flight
(none can be, R32) nothing of the block changes at all. -/
def Obligations.OnlyResetLeavesTheFaultState : Prop :=
  (∀ s t : State, s.fault = true → step s = .next t → s.resetMove = none →
    t.fault = true ∧ t.errCause = s.errCause ∧
    (s.busy = false → t = { s with host := t.host, responses := t.responses })) ∧
  (∀ (s : State) (rest : List HostMove), s.resetMove = some rest →
    ∃ t, step s = .next t ∧ t.fault = false ∧ t.errCause = 0)

/-- R181: the codes that each command, an illegal word and the engine can answer, with R180's values; no other, and each
listed one in some state; a code that is not OK has no payload. -/
def Obligations.AnswersCarryTheListedCodes : Prop :=
  [Code.ok, .eIllegal, .eKeylen, .eKeyzero, .eLen, .eNokey, .eNodvd, .eNorem, .eRange, .faulted].map Code.bits =
    [0x00, 0x01, 0x02, 0x03, 0x04, 0x05, 0x06, 0x07, 0x08, 0x09] ∧
  (∀ (i : Instr) (c : Code), c ∈ errorCodes i → ∃ (j : Instr) (s t : State),
    mnemonic j = mnemonic i ∧ exec j s = .next t ∧ t.responses = s.responses ++ [⟨c, .none⟩]) ∧
  (∀ (i : Instr) (s t : State), exec i s = .next t →
    (∃ r : Response, t.responses = s.responses ++ [r] ∧ (r.code = .ok ∨ r.code ∈ errorCodes i) ∧
      (r.code ≠ .ok → r.payload = .none)) ∨
    (i = .crc ∧ t.busy = true ∧ t.responses = s.responses)) ∧
  (∀ (s t : State) (w : Word) (o : Nat) (rest : List HostMove), presents s w o rest →
    (∀ row ∈ opcodeTable, w &&& row.mask ≠ row.pattern) → step s = .next t →
    ∃ r : Response, t.responses = s.responses ++ [r] ∧ (r.code = .eIllegal ∨ r.code = .faulted) ∧ r.payload = .none) ∧
  (∀ s t : State, engineStep s = .next t →
    t.responses = s.responses ∨ ∃ v, t.responses = s.responses ++ [⟨.ok, .int v⟩])

/-- R183: the fault state first, then decode, then the command's own checks in the order of its pseudocode; the first
check that fails decides, whatever the later ones would say. -/
def Obligations.ChecksComeInTheirOrder : Prop :=
  (∀ (s : State) (w : Word) (o : Nat) (rest : List HostMove), presents s w o rest →
    (s.fault = true → w ≠ 0x00000006 → step s = .next (answered { s with host := rest } .faulted .none)) ∧
    (s.fault = false → (∀ i, decode w o ≠ .ok i) → step s = .next (raised { s with host := rest } .eIllegal))) ∧
  (∀ s : State, s.fault = false →
    (∀ (len : Byte) (o : Nat),
      (len.toNat < 2 ∨ s.cfg.maxLen < len.toNat → exec (.ldkey len o) s = .next (raised s .eKeylen)) ∧
      (2 ≤ len.toNat → len.toNat ≤ s.cfg.maxLen → (∀ i < len.toNat, o.testBit i = false) →
        exec (.ldkey len o) s = .next (raised s .eKeyzero))) ∧
    (s.keyValid = false → exec .crc s = .next (raised s .eNokey)) ∧
    (s.keyValid = true → s.dvdValid = false → exec .crc s = .next (raised s .eNodvd)) ∧
    (∀ (width : Byte) (o : Nat),
      (s.cfg.maxLen < width.toNat → exec (.i2s width o) s = .next (raised s .eLen)) ∧
      (width.toNat ≤ s.cfg.maxLen → 2 ^ width.toNat ≤ o % 2 ^ s.cfg.maxLen →
        exec (.i2s width o) s = .next (raised s .eRange))) ∧
    (∀ (len start stop : Byte) (o : Nat),
      (s.cfg.maxLen < len.toNat → exec (.digits len start stop o) s = .next (raised s .eLen)) ∧
      (len.toNat ≤ s.cfg.maxLen → (stop.toNat < start.toNat ∨ len.toNat < stop.toNat) →
        exec (.digits len start stop o) s = .next (raised s .eRange))))

/-! ## The commands: where each completes, with what result and what frame -/

/-- R170: NOP. -/
def Obligations.NopAnswersOk : Prop :=
  encoded 0x01 false false false (fun _ _ => .nop) ∧ refusedWhileFaulted .nop ∧
  (∀ s : State, s.fault = false → exec .nop s = .next (answered s .ok .none)) ∧
  (∀ cfg : Config, exec .nop (State.resetOf cfg) = .next (answered (State.resetOf cfg) .ok .none))

/-- R171, R33: RDSTAT answers the STATUS word, field by field, in every state, the fault state included, and changes
nothing; directly after reset it answers 0. -/
def Obligations.RdstatAnswersTheStatusWord : Prop :=
  encoded 0x06 false false false (fun _ _ => .rdstat) ∧
  (∀ s : State, ∃ v : Word, exec .rdstat s = .next (answered s .ok (.status v)) ∧
    v.getLsbD 0 = s.fault ∧ v.getLsbD 1 = s.keyValid ∧ v.getLsbD 2 = s.dvdValid ∧ v.getLsbD 3 = s.remValid ∧
    v.extractLsb' 4 4 = 0 ∧ v.extractLsb' 8 8 = s.errCause ∧ v.extractLsb' 16 8 = s.keyLen ∧
    v.extractLsb' 24 8 = s.dvdLen ∧ (s.FaultInv → s.fault = false → v.extractLsb' 8 8 = 0)) ∧
  (∀ cfg : Config, exec .rdstat (State.resetOf cfg) = .next (answered (State.resetOf cfg) .ok (.status 0x00000000)))

/-- R104: S2I. The result is the sum of R101, for every operand and every legal length, 0 and MAX_LEN included. -/
def Obligations.S2iAnswersTheBigEndianValue : Prop :=
  encoded 0x07 true false false (fun w o => .s2i (fieldA w) o) ∧ (∀ len o, refusedWhileFaulted (.s2i len o)) ∧
  ∀ (s : State) (len : Byte) (o : Nat), s.fault = false →
    (s.cfg.maxLen < len.toNat → exec (.s2i len o) s = .next (raised s .eLen)) ∧
    (len.toNat ≤ s.cfg.maxLen → exec (.s2i len o) s =
      .next (answered s .ok (.int (∑ i ∈ Finset.range len.toNat, (o.testBit i).toNat * 2 ^ (len.toNat - 1 - i)))))

/-- R105: I2S. The value is the integer form of R77, the result its `width` bits, most significant first, in the low
lanes of the payload, the lanes above them 0. -/
def Obligations.I2sAnswersTheExpansion : Prop :=
  encoded 0x08 true false false (fun w o => .i2s (fieldA w) o) ∧ (∀ width o, refusedWhileFaulted (.i2s width o)) ∧
  ∀ (s : State) (width : Byte) (o : Nat), s.fault = false →
    let v := ∑ j ∈ Finset.range s.cfg.maxLen, (o.testBit j).toNat * 2 ^ j
    (s.cfg.maxLen < width.toNat → exec (.i2s width o) s = .next (raised s .eLen)) ∧
    (width.toNat ≤ s.cfg.maxLen → 2 ^ width.toNat ≤ v → exec (.i2s width o) s = .next (raised s .eRange)) ∧
    (width.toNat ≤ s.cfg.maxLen → v < 2 ^ width.toNat → exec (.i2s width o) s =
      .next (answered s .ok (.seq ((List.range s.cfg.maxLen).map fun i =>
        if i < width.toNat then v.testBit (width.toNat - 1 - i) else false) width)))

/-- R106: DIGITS. Byte `k` of the answer is the character of element `start + k`; the bytes 0x30 and 0x31 are the ASCII codes,
which the spec marks as general knowledge (log 13). -/
def Obligations.DigitsAnswersTheCharacters : Prop :=
  encoded 0x09 true true true (fun w o => .digits (fieldA w) (fieldB w) (fieldC w) o) ∧
  (∀ len start stop o, refusedWhileFaulted (.digits len start stop o)) ∧
  ∀ (s : State) (len start stop : Byte) (o : Nat), s.fault = false →
    (s.cfg.maxLen < len.toNat → exec (.digits len start stop o) s = .next (raised s .eLen)) ∧
    (len.toNat ≤ s.cfg.maxLen → ¬(start.toNat ≤ stop.toNat ∧ stop.toNat ≤ len.toNat) →
      exec (.digits len start stop o) s = .next (raised s .eRange)) ∧
    (len.toNat ≤ s.cfg.maxLen → start.toNat ≤ stop.toNat → stop.toNat ≤ len.toNat →
      exec (.digits len start stop o) s = .next (answered s .ok (.chars
        ((List.range (stop.toNat - start.toNat)).map fun k => if o.testBit (start.toNat + k) then 0x31 else 0x30))))

/-- R131: LDKEY. It is refused for its length, else for being all zero, else it writes the whole KEY and nothing else;
only the operand's bits below `L` matter. -/
def Obligations.LdkeyLoadsTheDivisor : Prop :=
  encoded 0x02 true false false (fun w o => .ldkey (fieldA w) o) ∧ (∀ len o, refusedWhileFaulted (.ldkey len o)) ∧
  ∀ (s : State) (len : Byte) (o : Nat), s.fault = false →
    (len.toNat < 2 ∨ s.cfg.maxLen < len.toNat → exec (.ldkey len o) s = .next (raised s .eKeylen)) ∧
    (2 ≤ len.toNat → len.toNat ≤ s.cfg.maxLen → (∀ i < len.toNat, o.testBit i = false) →
      exec (.ldkey len o) s = .next (raised s .eKeyzero)) ∧
    (2 ≤ len.toNat → len.toNat ≤ s.cfg.maxLen → (∃ i < len.toNat, o.testBit i = true) →
      exec (.ldkey len o) s = .next (answered
        { s with keySeq := lanesOfOperand s.cfg o len.toNat, keyLen := len, keyValid := true } .ok .none))

/-- R132: LDDVD. It is refused for its length, else it writes the whole DVD and nothing else. -/
def Obligations.LddvdLoadsTheDividend : Prop :=
  encoded 0x03 true false false (fun w o => .lddvd (fieldA w) o) ∧ (∀ len o, refusedWhileFaulted (.lddvd len o)) ∧
  ∀ (s : State) (len : Byte) (o : Nat), s.fault = false →
    (s.cfg.maxLen < len.toNat → exec (.lddvd len o) s = .next (raised s .eLen)) ∧
    (len.toNat ≤ s.cfg.maxLen → exec (.lddvd len o) s = .next (answered
      { s with dvdSeq := lanesOfOperand s.cfg o len.toNat, dvdLen := len, dvdValid := true } .ok .none))

/-- R133, the accepting step: CRC is refused without a divisor, else without a dividend, else it copies the operands to
the engine and sets BUSY, changes nothing else and sends no response. The engine's steps then write WR, REM, REM_VALID and
BUSY only, and raise no error. -/
def Obligations.CrcStartsTheDivision : Prop :=
  encoded 0x04 false false false (fun _ _ => .crc) ∧ refusedWhileFaulted .crc ∧
  (∀ s t : State, engineStep s = .next t →
    t = { s with wr := t.wr, rem := t.rem, remValid := t.remValid, busy := t.busy, responses := t.responses }) ∧
  ∀ s : State, s.fault = false →
    (s.keyValid = false → exec .crc s = .next (raised s .eNokey)) ∧
    (s.keyValid = true → s.dvdValid = false → exec .crc s = .next (raised s .eNodvd)) ∧
    (s.keyValid = true → s.dvdValid = true → exec .crc s = .next
      { s with
        wr := ∑ i ∈ Finset.range s.dvdLen.toNat, (lane s.dvdSeq i).toNat * 2 ^ (s.dvdLen.toNat - 1 - i)
        wp := ∑ i ∈ Finset.range s.keyLen.toNat, (lane s.keySeq i).toNat * 2 ^ (s.keyLen.toNat - 1 - i)
        wk := s.keyLen
        busy := true })

/-- R143: RDREM. -/
def Obligations.RdremAnswersTheLastRemainder : Prop :=
  encoded 0x05 false false false (fun _ _ => .rdrem) ∧ refusedWhileFaulted .rdrem ∧
  ∀ s : State, s.fault = false →
    (s.remValid = false → exec .rdrem s = .next (raised s .eNorem)) ∧
    (s.remValid = true → exec .rdrem s = .next (answered s .ok (.int s.rem)))

/-! ## The engine -/

/-- R140: ITERATE, in every state in which it is enabled and the host does not reset (which states those are with a command
held is log 22); and exactly one of ITERATE and FINISH
is enabled while BUSY = 1, none while BUSY = 0. -/
def Obligations.IterateDoesOneTurn : Prop :=
  (∀ s u : State, engineTurn s u →
    s.busy = true → s.wr ≠ 0 → s.wp ≠ 0 → bitLength s.wp ≤ bitLength s.wr →
    step s = .next { u with wr := s.wr ^^^ (s.wp <<< (bitLength s.wr - bitLength s.wp)) }) ∧
  (∀ s : State,
    (s.iterateEnabled = true ↔ s.busy = true ∧ s.wr ≠ 0 ∧ s.wp ≠ 0 ∧ bitLength s.wp ≤ bitLength s.wr) ∧
    (s.busy = true → s.iterateEnabled ≠ s.finishEnabled) ∧
    (s.busy = false → s.iterateEnabled = false ∧ s.finishEnabled = false))

/-- R141: FINISH writes REM, REM_VALID and BUSY and answers the remainder; WR, WP, WK and the rest keep their values (when the
engine has its turn with a command held is log 22). -/
def Obligations.FinishDeliversTheRemainder : Prop :=
  ∀ s u : State, engineTurn s u →
    s.busy = true → ¬(s.wr ≠ 0 ∧ s.wp ≠ 0 ∧ bitLength s.wp ≤ bitLength s.wr) →
    step s = .next (answered
      { u with rem := s.wr % 2 ^ (s.wk.toNat - 1), remValid := true, busy := false }
      .ok (.int (s.wr % 2 ^ (s.wk.toNat - 1))))

/-- R142, the engine's run agrees with the one-step form: an accepted CRC runs `n` ITERATE steps, all without a response
and with REM unchanged, and then FINISH, which answers and stores `computeRemainder` of the loaded operands; `n` is at
most DVD_LEN (R144). The host may wait, have no further move or present a command, which is held meanwhile (R214, R220;
`movesAfterTurn` is what a turn of the engine's leaves of its moves). Only a reset breaks the run off. -/
def Obligations.EngineRunComputesTheRemainder : Prop :=
  ∀ (s : State) (o : Nat) (rest : List HostMove),
    s.Inv → presents s 0x00000004 o rest →
    s.fault = false → s.keyValid = true → s.dvdValid = true →
    let n := iterateCount s.keySeq s.keyLen.toNat s.dvdSeq s.dvdLen.toNat
    let v := computeRemainder s.keySeq s.keyLen.toNat s.dvdSeq s.dvdLen.toNat
    (∀ k ≤ n, resetWhileBusy (movesAfterTurn^[k] rest) = none) →
    n ≤ s.dvdLen.toNat ∧
    (∀ k ≤ n, ∃ t : State, Host.Core.run core (1 + k) s = .next t ∧
      t.busy = true ∧ t.responses = s.responses ∧ t.rem = s.rem ∧ t.host = movesAfterTurn^[k] rest) ∧
    Host.Core.run core (1 + n + 1) s = .next
      { s with
        host := movesAfterTurn^[n + 1] rest, busy := false, rem := v, remValid := true,
        wr := v, wp := toInteger s.keySeq s.keyLen.toNat, wk := s.keyLen,
        responses := s.responses ++ [⟨.ok, .int v⟩] }

/-- R214: a command presented while a CRC is in flight is held. A step that is no reset is the engine's: the command stays
the host's next move, a wait behind it being used up, KEY and DVD keep their values (R216), and after at most MAX_LEN + 1
engine steps the CRC has answered and the command can be taken. A reset made while it is held clears BUSY without an answer,
and the command is taken next. That a wait or a reset listed right behind the held command is made while it is held is the
model's choice (log 22). -/
def Obligations.HeldCommandWaitsForTheEngine : Prop :=
  ∀ (s : State) (w : Word) (o : Nat) (rest : List HostMove), s.busy = true → s.host = .command w o :: rest →
    ((∀ later, rest ≠ .reset :: later) →
      ∃ (t : State) (later : List HostMove), step s = .next t ∧
        (rest = .wait :: later ∨ rest = later ∧ ∀ later', rest ≠ .wait :: later') ∧
        engineStep { s with host := .command w o :: later } = .next t ∧ t.host = .command w o :: later ∧
        t.keySeq = s.keySeq ∧ t.keyLen = s.keyLen ∧ t.keyValid = s.keyValid ∧
        t.dvdSeq = s.dvdSeq ∧ t.dvdLen = s.dvdLen ∧ t.dvdValid = s.dvdValid) ∧
    (∀ later, rest = .reset :: later → ∃ t : State, step s = .next t ∧ presents t w o later ∧
      t.responses = s.responses ∧ t = { State.resetOf s.cfg with
        host := .command w o :: later, responses := s.responses, abandoned := s.abandoned + 1 }) ∧
    (s.Inv → (∀ k ≤ s.cfg.maxLen, resetWhileBusy (movesAfterTurn^[k] s.host) = none) →
      ∃ (n : Nat) (t : State) (later : List HostMove), n ≤ s.cfg.maxLen + 1 ∧ Host.Core.run core n s = .next t ∧
        presents t w o later ∧ t.host = movesAfterTurn^[n] s.host ∧
        t.responses = s.responses ++ [⟨.ok, .int t.rem⟩])

/-- R144: an iteration makes the bit length smaller, and the number of iterations is within the spec's bound. -/
def Obligations.IterationsEndWithinTheBound : Prop :=
  (∀ r p : Nat, r ≠ 0 → p ≠ 0 → bitLength p ≤ bitLength r →
    bitLength (r ^^^ (p <<< (bitLength r - bitLength p))) < bitLength r) ∧
  (∀ (k : Seq) (kl : Nat) (d : Seq) (dl : Nat), toInteger k kl ≠ 0 →
    (bitLength (toInteger k kl) ≤ bitLength (toInteger d dl) →
      iterateCount k kl d dl ≤ bitLength (toInteger d dl) - bitLength (toInteger k kl) + 1) ∧
    (bitLength (toInteger d dl) < bitLength (toInteger k kl) → iterateCount k kl d dl = 0) ∧
    iterateCount k kl d dl + 1 ≤ dl + 1)

/-- R145, R146: in every state that meets the invariants with a CRC in flight, no value of an iteration needs more than
MAX_LEN bits, and where the loop ends the mask changes nothing and the remainder fits REM. -/
def Obligations.NothingOverflowsAndTheMaskIsIdentity : Prop :=
  ∀ s : State, s.Inv → s.busy = true →
    (s.iterateEnabled = true →
      s.wp <<< (bitLength s.wr - bitLength s.wp) < 2 ^ s.cfg.maxLen ∧
      s.wr ^^^ (s.wp <<< (bitLength s.wr - bitLength s.wp)) < 2 ^ s.cfg.maxLen) ∧
    (s.finishEnabled = true →
      s.wr % 2 ^ (s.wk.toNat - 1) = s.wr ∧ s.wr < 2 ^ (s.wk.toNat - 1) ∧ s.wr < 2 ^ (s.cfg.maxLen - 1))

/-! ## The division as mathematics -/

/-- R11: the bit length is the position of the highest set bit plus one, and 0 for 0. -/
def Obligations.BitLengthIsTheHighestBitPlusOne : Prop :=
  bitLength 0 = 0 ∧
  ∀ x : Nat, x ≠ 0 → x.testBit (bitLength x - 1) = true ∧ (∀ i, bitLength x ≤ i → x.testBit i = false) ∧
    bitLength x = Nat.log 2 x + 1

/-- R134: `computeRemainder` is the source's while loop followed by the mask: there is a loop function that goes on from
`r XOR (p << (bitLength r − bitLength p))` while the guard holds and ends with `r` where it does not, and the remainder is
its result modulo `2^(kl−1)`. -/
def Obligations.ComputeRemainderIsTheLoop : Prop :=
  ∃ loop : Nat → Nat → Nat,
    (∀ r p : Nat, loop r p =
      if r ≠ 0 ∧ p ≠ 0 ∧ bitLength p ≤ bitLength r then loop (r ^^^ (p <<< (bitLength r - bitLength p))) p else r) ∧
    ∀ (k : Seq) (kl : Nat) (d : Seq) (dl : Nat),
      computeRemainder k kl d dl = loop (toInteger d dl) (toInteger k kl) % 2 ^ (kl - 1)

/-- R147: the remainder, as a polynomial, is the dividend polynomial modulo the key polynomial over GF(2); so it is 0
exactly when the key polynomial divides the dividend polynomial. -/
def Obligations.RemainderIsThePolynomialRemainder : Prop :=
  ∀ (k : Seq) (kl : Nat) (d : Seq) (dl : Nat), toInteger k kl ≠ 0 →
    natPoly (computeRemainder k kl d dl) = seqPoly d dl % seqPoly k kl ∧
    (computeRemainder k kl d dl = 0 ↔ seqPoly k kl ∣ seqPoly d dl)

/-- R148, items 1 to 7. -/
def Obligations.DivisionCornerCases : Prop :=
  ∀ (k : Seq) (kl : Nat) (d : Seq) (dl : Nat), 2 ≤ kl → toInteger k kl ≠ 0 →
    ((∀ i < dl, lane d i = false) → iterateCount k kl d dl = 0 ∧ computeRemainder k kl d dl = 0) ∧
    (computeRemainder k kl k kl = 0 ∧ iterateCount k kl k kl = 1) ∧
    (∀ j, computeRemainder k kl (List.replicate j false ++ k) (j + kl) = 0) ∧
    (toInteger k kl = 1 → d.length = dl → computeRemainder k kl d dl = 0 ∧ iterateCount k kl d dl = d.count true) ∧
    (∀ t, toInteger k kl = 2 ^ t → computeRemainder k kl d dl = toInteger d dl % 2 ^ t) ∧
    (bitLength (toInteger d dl) < bitLength (toInteger k kl) →
      iterateCount k kl d dl = 0 ∧ computeRemainder k kl d dl = toInteger d dl) ∧
    (∀ s : State, s.busy = true → s.wr = 0 → s.finishEnabled = true ∧ s.finalRemainder = 0) ∧
    (toInteger k kl = 3 → d.length = dl → computeRemainder k kl d dl = d.count true % 2)

/-- R149: the remainder of the lane by lane XOR of two dividends of one length is the XOR of their remainders. -/
def Obligations.DivisionIsLinear : Prop :=
  ∀ (k : Seq) (kl : Nat) (a b : Seq) (len : Nat), a.length = len → b.length = len →
    computeRemainder k kl (List.zipWith (· ^^ ·) a b) len = computeRemainder k kl a len ^^^ computeRemainder k kl b len

/-- R149, its consequence for single flips: a flip at index `j` of a dividend whose remainder is 0 goes undetected exactly
when the key polynomial is a monomial `x^t` with `t ≤ L−1−j`. -/
def Obligations.SingleFlipsPassOnlyMonomialKeys : Prop :=
  ∀ (k : Seq) (kl : Nat) (d : Seq) (len j : Nat), toInteger k kl ≠ 0 → d.length = len → j < len →
    computeRemainder k kl d len = 0 →
    (computeRemainder k kl (d.set j (!lane d j)) len = 0 ↔ ∃ t ≤ len - 1 - j, toInteger k kl = 2 ^ t)

/-- R150: appending the frame check sequence of a frame makes its remainder 0, for every key with or without leading
zeros. -/
def Obligations.FcsRoundTrip : Prop :=
  ∀ (k : Seq) (kl : Nat) (u : Seq), 2 ≤ kl → toInteger k kl ≠ 0 →
    let fcs := computeRemainder k kl (u ++ List.replicate (kl - 1) false) (u.length + kl - 1)
    computeRemainder k kl (u ++ expand fcs (kl - 1)) (u.length + kl - 1) = 0

/-- R152: for a key whose first digit is 1, the remainder of data followed by `kl − 1` zeros is the standard CRC of that
width: generator the key without its first digit, initial register 0, no reflection, final XOR 0. Those parameters are
general knowledge of the spec's and not of its source (log 17). -/
def Obligations.AgreesWithTheStandardCrcRegister : Prop :=
  ∀ (k : Seq) (kl : Nat) (u : Seq), 2 ≤ kl → k.length = kl → lane k 0 = true →
    computeRemainder k kl (u ++ List.replicate (kl - 1) false) (u.length + kl - 1) =
      registerCrc (kl - 1) (toInteger (k.drop 1) (kl - 1)) u

/-! ## The codec as mathematics -/

/-- R101: `toInteger` is the sum of its rule and follows its loop, stays below `2^L`, and is 0 for an all-zero and for an empty sequence. -/
def Obligations.ToIntegerIsTheBigEndianSum : Prop :=
  ∀ (s : Seq) (len : Nat),
    toInteger s len = ∑ i ∈ Finset.range len, (lane s i).toNat * 2 ^ (len - 1 - i) ∧
    toInteger s (len + 1) = 2 * toInteger s len + (lane s len).toNat ∧
    toInteger s len < 2 ^ len ∧
    ((∀ i < len, lane s i = false) → toInteger s len = 0) ∧
    toInteger s 0 = 0

/-- R107: `expand` and `toInteger` undo each other at one width, and `toInteger` is injective on sequences of one length. -/
def Obligations.CodecRoundTrip : Prop :=
  (∀ (width : Nat) (s : Seq), s.length = width → expand (toInteger s width) width = s) ∧
  (∀ width v : Nat, v < 2 ^ width → toInteger (expand v width) width = v) ∧
  (∀ (width : Nat) (s t : Seq), s.length = width → t.length = width → toInteger s width = toInteger t width → s = t)

/-- R108: the whole rendering has a byte `0x30 + s[k]` for every element, and adjoining ranges concatenate. -/
def Obligations.DigitRenderingLaw : Prop :=
  ∀ s : Seq,
    (toDigitString s 0 s.length).length = s.length ∧
    (∀ k < s.length, (toDigitString s 0 s.length)[k]? = some (0x30 + (BitVec.ofBool (lane s k)).setWidth 8)) ∧
    (∀ a b c : Nat, a ≤ b → b ≤ c → c ≤ s.length →
      toDigitString s a b ++ toDigitString s b c = toDigitString s a c)

/-! ## Rules of the whole machine -/

/-- R34, the writes of every command and of the two engine steps: a register without a `w` in the column is unchanged, and
a command that raises an error writes FAULT and ERR_CAUSE only. -/
def Obligations.CommandsWriteOnlyTheirRegisters : Prop :=
  (∀ (i : Instr) (s : State), ∃ t : State, exec i s = .next t ∧ t.cfg = s.cfg ∧ t.host = s.host ∧
    (writesKey i = false → t.keySeq = s.keySeq ∧ t.keyLen = s.keyLen ∧ t.keyValid = s.keyValid) ∧
    (writesDvd i = false → t.dvdSeq = s.dvdSeq ∧ t.dvdLen = s.dvdLen ∧ t.dvdValid = s.dvdValid) ∧
    (t.rem = s.rem ∧ t.remValid = s.remValid) ∧
    (i ≠ .crc → t.busy = s.busy ∧ t.wr = s.wr ∧ t.wp = s.wp ∧ t.wk = s.wk) ∧
    ((t.fault = s.fault ∧ t.errCause = s.errCause) ∨
      ∃ c : Code, c ≠ .ok ∧ t = { s with fault := true, errCause := c.bits, responses := t.responses })) ∧
  (∀ s : State, ∃ t : State, engineStep s = .next t ∧
    (divGuard s.wr s.wp = true → t = { s with wr := t.wr }) ∧
    (divGuard s.wr s.wp = false →
      t = { s with rem := t.rem, remValid := true, busy := false, responses := t.responses }))

/-- R34, the reads: in two states of one instance that agree on the registers with an `r` in the command's column, the
command answers the same, and whatever it writes in the one it writes in the other with the same value. -/
def Obligations.CommandsReadOnlyTheirRegisters : Prop :=
  ∀ (i : Instr) (s s' t t' : State), readsAgree i s s' → exec i s = .next t → exec i s' = .next t' →
    (∃ l, t.responses = s.responses ++ l ∧ t'.responses = s'.responses ++ l) ∧
    t.fault = t'.fault ∧
    ((t.errCause = s.errCause ∧ t'.errCause = s'.errCause) ∨ t.errCause = t'.errCause) ∧
    (((t.keySeq, t.keyLen, t.keyValid) = (s.keySeq, s.keyLen, s.keyValid) ∧
        (t'.keySeq, t'.keyLen, t'.keyValid) = (s'.keySeq, s'.keyLen, s'.keyValid)) ∨
      (t.keySeq, t.keyLen, t.keyValid) = (t'.keySeq, t'.keyLen, t'.keyValid)) ∧
    (((t.dvdSeq, t.dvdLen, t.dvdValid) = (s.dvdSeq, s.dvdLen, s.dvdValid) ∧
        (t'.dvdSeq, t'.dvdLen, t'.dvdValid) = (s'.dvdSeq, s'.dvdLen, s'.dvdValid)) ∨
      (t.dvdSeq, t.dvdLen, t.dvdValid) = (t'.dvdSeq, t'.dvdLen, t'.dvdValid)) ∧
    (((t.busy, t.wr, t.wp, t.wk) = (s.busy, s.wr, s.wp, s.wk) ∧
        (t'.busy, t'.wr, t'.wp, t'.wk) = (s'.busy, s'.wr, s'.wp, s'.wk)) ∨
      (t.busy, t.wr, t.wp, t.wk) = (t'.busy, t'.wr, t'.wp, t'.wk))

/-- R55: a read that succeeds changes nothing but the list of responses, and repeated it answers the same. -/
def Obligations.ReadsHaveNoEffectAndRepeat : Prop :=
  ∀ (i : Instr) (s t : State), readsOnly i = true → exec i s = .next t → t.fault = s.fault →
    t = { s with responses := t.responses } ∧
    ∃ r : Response, t.responses = s.responses ++ [r] ∧ exec i t = .next (answered t r.code r.payload)

/-- R70: a command that is taken has exactly one response: in its own step, or, an accepted CRC, none in that step and
BUSY = 1. A step of the engine answers exactly when it ends the CRC, and reset answers nothing. -/
def Obligations.EveryCommandHasOneResponse : Prop :=
  (∀ (s t : State) (w : Word) (o : Nat) (rest : List HostMove), presents s w o rest → step s = .next t →
    ((∃ r, t.responses = s.responses ++ [r]) ∧ t.busy = false) ∨
    (w = 0x00000004 ∧ t.responses = s.responses ∧ t.busy = true)) ∧
  (∀ s t : State, s.busy = true → step s = .next t → s.resetMove = none →
    (t.busy = true ∧ t.responses = s.responses) ∨ (t.busy = false ∧ ∃ r, t.responses = s.responses ++ [r])) ∧
  (∀ (s t : State) (rest : List HostMove), s.resetMove = some rest → step s = .next t → t.responses = s.responses)

/-- R30: BUSY goes to 1 exactly in the step that accepts a CRC, and back to 0 exactly by FINISH or by reset. -/
def Obligations.BusyFromAcceptanceToFinish : Prop :=
  ∀ s t : State, step s = .next t →
    (s.busy = false → (t.busy = true ↔
      (∃ o rest, s.host = .command 0x00000004 o :: rest) ∧ s.fault = false ∧ s.keyValid = true ∧ s.dvdValid = true)) ∧
    (s.busy = true → (t.busy = false ↔ (∃ rest, s.resetMove = some rest) ∨ s.finishEnabled = true))

/-- R23, R26, R28: the valid flags are set by LDKEY, LDDVD and FINISH and cleared by nothing but reset. -/
def Obligations.ValidFlagsAreClearedByResetOnly : Prop :=
  ∀ s t : State, step s = .next t → s.resetMove = none →
    (s.keyValid = true → t.keyValid = true) ∧ (s.dvdValid = true → t.dvdValid = true) ∧
    (s.remValid = true → t.remValid = true) ∧
    (s.keyValid = false → t.keyValid = true →
      s.busy = false ∧ ∃ w o rest, s.host = .command w o :: rest ∧ fieldOP w = 0x02) ∧
    (s.dvdValid = false → t.dvdValid = true →
      s.busy = false ∧ ∃ w o rest, s.host = .command w o :: rest ∧ fieldOP w = 0x03) ∧
    (s.remValid = false → t.remValid = true → s.finishEnabled = true)

/-- R35: a command that would read a register whose valid flag is 0 raises an error instead, whatever the register
holds. -/
def Obligations.UnwrittenRegistersAreNeverRead : Prop :=
  ∀ s : State, s.fault = false →
    (s.keyValid = false → exec .crc s = .next (raised s .eNokey)) ∧
    (s.keyValid = true → s.dvdValid = false → exec .crc s = .next (raised s .eNodvd)) ∧
    (s.remValid = false → exec .rdrem s = .next (raised s .eNorem))

/-- R211: a reset with a CRC in flight abandons it: no response, REM_VALID 0, the partial remainder lost; a host that then
waits is stuck (log 4), and the CRC counts as abandoned (log 21). -/
def Obligations.ResetAbandonsTheCrc : Prop :=
  ∀ (s : State) (rest : List HostMove), s.busy = true → s.resetMove = some rest →
    ∃ t : State, step s = .next t ∧ t.busy = false ∧ t.responses = s.responses ∧ t.remValid = false ∧ t.wr = 0 ∧
      t.host = rest ∧ t.abandoned = s.abandoned + 1 ∧ (∀ rest', rest = .wait :: rest' → step t = .fault .waitStuck)

/-- R215: REM keeps the last remainder over a load that succeeds, so RDREM answers it and not one of the new operands. -/
def Obligations.RemainderIsStaleAfterALoad : Prop :=
  ∀ (s t : State) (len : Byte) (o : Nat), s.fault = false → s.remValid = true →
    (exec (.ldkey len o) s = .next t ∨ exec (.lddvd len o) s = .next t) → t.fault = false →
    t.rem = s.rem ∧ t.remValid = true ∧ exec .rdrem t = .next (answered t .ok (.int s.rem))

/-- R196: between commands the block holds its state unchanged (a step without a move of any agent is the model's way to
say so, log 5). -/
def Obligations.IdleBlockHoldsItsState : Prop :=
  ∀ s : State, s.busy = false → s.host = [] → step s = .next s

/-! ## The assembler's notation -/

/-- R84: the move that a line stands for. A length, width or index of 0 to 255 stands in its field; a string of exactly
`L` digits stands element by element on the operand's bits, the bits above it 0; an integer is the operand; a string of
another length is an assembly error. -/
def Obligations.LinesAssembleToTheirCommands : Prop :=
  ∀ cfg : Config,
    (assemble cfg .nop = .ok (.command 0x00000001 0) ∧ assemble cfg .crc = .ok (.command 0x00000004 0) ∧
      assemble cfg .rdrem = .ok (.command 0x00000005 0) ∧ assemble cfg .rdstat = .ok (.command 0x00000006 0) ∧
      assemble cfg .reset = .ok .reset) ∧
    (∀ (len : Byte) (q : Seq), q.length = len.toNat → ∃ o : Nat,
      (∀ j, o.testBit j = (decide (j < cfg.maxLen) && lane q j)) ∧
      assemble cfg (.ldkey len.toNat q) = .ok (.command (commandWord 0x02 len 0 0) o) ∧
      assemble cfg (.lddvd len.toNat q) = .ok (.command (commandWord 0x03 len 0 0) o) ∧
      assemble cfg (.s2i len.toNat q) = .ok (.command (commandWord 0x07 len 0 0) o) ∧
      ∀ start stop : Byte, assemble cfg (.digits len.toNat start.toNat stop.toNat q) =
        .ok (.command (commandWord 0x09 len start stop) o)) ∧
    (∀ (width : Byte) (v : Nat), v < 2 ^ cfg.maxLen →
      assemble cfg (.i2s width.toNat v) = .ok (.command (commandWord 0x08 width 0 0) v)) ∧
    (∀ (len start stop : Nat) (q : Seq) (m : HostMove), q.length ≠ len →
      assemble cfg (.ldkey len q) ≠ .ok m ∧ assemble cfg (.lddvd len q) ≠ .ok m ∧
      assemble cfg (.s2i len q) ≠ .ok m ∧ assemble cfg (.digits len start stop q) ≠ .ok m)

/-! ## The end of a run -/

/-- R70, R211: the count of accepted commands goes up by one exactly in a step that takes a command, whatever it answers, and a
CRC becomes one without a response only by a reset while it is in flight. The count is the model's way to hold item 3 of
R221 (log 21). -/
def Obligations.AcceptedCommandsAreCounted : Prop :=
  ∀ s t : State, step s = .next t →
    ((∃ w o rest, presents s w o rest) → t.acceptedCommands = s.acceptedCommands + 1) ∧
    ((∀ w o rest, ¬presents s w o rest) → t.acceptedCommands = s.acceptedCommands) ∧
    ((∃ rest, s.resetMove = some rest) → t.abandoned = s.abandoned + s.busy.toNat) ∧
    (s.resetMove = none → t.abandoned = s.abandoned)

/-- R221: a run has ended when its three conditions hold, and has succeeded when FAULT = 0 besides. A run from reset in which
the host does not reset again has ended as soon as the host has no move left and BUSY = 0; an ended run stays where it is;
and once a reset has abandoned a CRC, its response never comes, so the run never ends (log 21). -/
def Obligations.RunsEndWhenEveryCommandIsAnswered : Prop :=
  (∀ s : State, s.runEnded = true ↔
    s.host = [] ∧ s.busy = false ∧ s.responses.length = s.acceptedCommands) ∧
  (∀ s : State, s.runSucceeded = true ↔ s.runEnded = true ∧ s.fault = false) ∧
  (∀ s : State, s.runEnded = true → step s = .next s) ∧
  (∀ (cfg : Config) (moves : List HostMove) (n : Nat) (t : State), .reset ∉ moves →
    Host.Core.run core n { State.resetOf cfg with host := moves } = .next t →
    (t.runEnded = true ↔ t.host = [] ∧ t.busy = false)) ∧
  (∀ (s t : State) (rest : List HostMove) (n : Nat), s.busy = true → s.resetMove = some rest →
    Host.Core.run core (n + 1) s = .next t → t.runEnded = false)
end

