-- ==== Sys2Proof/Laws/Decode.lean ====
section
/-!
SUPPORT. The fields of a word as numbers, the fields of a word made of four bytes, and that no word is in two rows of the
opcode map.
-/

namespace Sys2Proof

theorem fieldOP_toNat (w : Word) : (fieldOP w).toNat = w.toNat % 2 ^ 8 := by
  simp [fieldOP, BitVec.extractLsb'_toNat]

theorem fieldA_toNat (w : Word) : (fieldA w).toNat = w.toNat / 2 ^ 8 % 2 ^ 8 := by
  simp [fieldA, BitVec.extractLsb'_toNat, Nat.shiftRight_eq_div_pow]

theorem fieldB_toNat (w : Word) : (fieldB w).toNat = w.toNat / 2 ^ 16 % 2 ^ 8 := by
  simp [fieldB, BitVec.extractLsb'_toNat, Nat.shiftRight_eq_div_pow]

theorem fieldC_toNat (w : Word) : (fieldC w).toNat = w.toNat / 2 ^ 24 % 2 ^ 8 := by
  simp [fieldC, BitVec.extractLsb'_toNat, Nat.shiftRight_eq_div_pow]

theorem commandWord_toNat (op a b c : Byte) :
    (commandWord op a b c).toNat = op.toNat + 2 ^ 8 * a.toNat + 2 ^ 16 * b.toNat + 2 ^ 24 * c.toNat := by
  rw [commandWord, BitVec.toNat_ofNat]
  omega

@[simp] theorem fieldOP_commandWord (op a b c : Byte) : fieldOP (commandWord op a b c) = op :=
  BitVec.eq_of_toNat_eq (by rw [fieldOP_toNat, commandWord_toNat]; omega)

@[simp] theorem fieldA_commandWord (op a b c : Byte) : fieldA (commandWord op a b c) = a :=
  BitVec.eq_of_toNat_eq (by rw [fieldA_toNat, commandWord_toNat]; omega)

@[simp] theorem fieldB_commandWord (op a b c : Byte) : fieldB (commandWord op a b c) = b :=
  BitVec.eq_of_toNat_eq (by rw [fieldB_toNat, commandWord_toNat]; omega)

@[simp] theorem fieldC_commandWord (op a b c : Byte) : fieldC (commandWord op a b c) = c :=
  BitVec.eq_of_toNat_eq (by rw [fieldC_toNat, commandWord_toNat]; omega)

/-- Two words with the same four fields are the same word. -/
theorem word_ext {v w : Word} (hop : fieldOP v = fieldOP w) (ha : fieldA v = fieldA w) (hb : fieldB v = fieldB w)
    (hc : fieldC v = fieldC w) : v = w := by
  have h0 := congrArg BitVec.toNat hop
  have h1 := congrArg BitVec.toNat ha
  have h2 := congrArg BitVec.toNat hb
  have h3 := congrArg BitVec.toNat hc
  rw [fieldOP_toNat, fieldOP_toNat] at h0
  rw [fieldA_toNat, fieldA_toNat] at h1
  rw [fieldB_toNat, fieldB_toNat] at h2
  rw [fieldC_toNat, fieldC_toNat] at h3
  exact BitVec.eq_of_toNat_eq (by omega)

/-- A word made of four bytes, recognised by its fields. -/
theorem eq_commandWord_iff (w : Word) (op a b c : Byte) :
    w = commandWord op a b c ↔ fieldOP w = op ∧ fieldA w = a ∧ fieldB w = b ∧ fieldC w = c := by
  constructor
  · rintro rfl; simp
  · rintro ⟨h0, h1, h2, h3⟩; exact word_ext (by simp [h0]) (by simp [h1]) (by simp [h2]) (by simp [h3])

@[simp] theorem fieldOP_and (v w : Word) : fieldOP (v &&& w) = fieldOP v &&& fieldOP w := BitVec.extractLsb'_and

@[simp] theorem fieldA_and (v w : Word) : fieldA (v &&& w) = fieldA v &&& fieldA w := BitVec.extractLsb'_and

@[simp] theorem fieldB_and (v w : Word) : fieldB (v &&& w) = fieldB v &&& fieldB w := BitVec.extractLsb'_and

@[simp] theorem fieldC_and (v w : Word) : fieldC (v &&& w) = fieldC v &&& fieldC w := BitVec.extractLsb'_and

@[simp] theorem byte_and_ones (x : Byte) : x &&& 0xFF#8 = x := BitVec.and_allOnes

/-- The rows whose mask covers the whole word (R75: no field used). -/
theorem and_maskNoField_iff (w : Word) (op : Byte) :
    w &&& 0xFFFFFFFF = commandWord op 0 0 0 ↔ fieldOP w = op ∧ fieldA w = 0 ∧ fieldB w = 0 ∧ fieldC w = 0 := by
  rw [eq_commandWord_iff, fieldOP_and, fieldA_and, fieldB_and, fieldC_and,
    show fieldOP 0xFFFFFFFF = 0xFF by decide, show fieldA 0xFFFFFFFF = 0xFF by decide,
    show fieldB 0xFFFFFFFF = 0xFF by decide, show fieldC 0xFFFFFFFF = 0xFF by decide]
  simp

/-- The rows whose mask leaves A out (R75: A used). -/
theorem and_maskFieldA_iff (w : Word) (op : Byte) :
    w &&& 0xFFFF00FF = commandWord op 0 0 0 ↔ fieldOP w = op ∧ fieldB w = 0 ∧ fieldC w = 0 := by
  rw [eq_commandWord_iff, fieldOP_and, fieldA_and, fieldB_and, fieldC_and,
    show fieldOP 0xFFFF00FF = 0xFF by decide, show fieldA 0xFFFF00FF = 0 by decide,
    show fieldB 0xFFFF00FF = 0xFF by decide, show fieldC 0xFFFF00FF = 0xFF by decide]
  simp

/-- The row whose mask covers OP alone (R75: A, B and C used). -/
theorem and_maskAllFields_iff (w : Word) (op : Byte) : w &&& 0x000000FF = commandWord op 0 0 0 ↔ fieldOP w = op := by
  rw [eq_commandWord_iff, fieldOP_and, fieldA_and, fieldB_and, fieldC_and,
    show fieldOP 0x000000FF = 0xFF by decide, show fieldA 0x000000FF = 0 by decide,
    show fieldB 0x000000FF = 0 by decide, show fieldC 0x000000FF = 0 by decide]
  simp

/-- Two rows of the map that differ disagree on a bit that both masks cover. -/
def OpcodeRow.excludes (r₁ r₂ : OpcodeRow) : Bool := r₁.pattern &&& (r₁.mask &&& r₂.mask) != r₂.pattern &&& (r₁.mask &&& r₂.mask)

theorem opcodeTable_pairwise_excludes : opcodeTable.Pairwise fun r₁ r₂ => r₁.excludes r₂ = true := by decide

/-- A word that is in two rows makes them agree on the bits that both masks cover. -/
theorem not_excludes_of_covers {r₁ r₂ : OpcodeRow} {w : Word} (h₁ : w &&& r₁.mask = r₁.pattern)
    (h₂ : w &&& r₂.mask = r₂.pattern) : r₁.excludes r₂ = false := by
  have e : w &&& r₁.mask &&& (r₁.mask &&& r₂.mask) = w &&& r₂.mask &&& (r₁.mask &&& r₂.mask) := by
    ext i hi
    simp only [BitVec.getElem_and]
    cases w[i] <;> cases r₁.mask[i] <;> cases r₂.mask[i] <;> rfl
  simp [OpcodeRow.excludes, ← h₁, ← h₂, e]

end Sys2Proof
end

