-- ==== Sys2Proof/Laws/Sequences.lean ====
section
/-!
SUPPORT. Lanes, bit lengths, the operand forms and the codec functions: what each lane and each bit of them is.
-/

namespace Sys2Proof

theorem lane_of_length_le {s : Seq} {i : Nat} (h : s.length ≤ i) : lane s i = false := by
  simp [lane, h]

@[simp] theorem lane_replicate_false (n i : Nat) : lane (List.replicate n false) i = false := by
  by_cases h : i < n <;> simp [lane, h]

theorem lane_map_range (f : Nat → Bool) (n i : Nat) :
    lane ((List.range n).map f) i = (decide (i < n) && f i) := by
  by_cases h : i < n <;> simp [lane, List.getD_eq_getElem?_getD, h]

theorem lane_append (s t : Seq) (i : Nat) :
    lane (s ++ t) i = if i < s.length then lane s i else lane t (i - s.length) := by
  by_cases h : i < s.length <;> simp [lane, List.getD_eq_getElem?_getD, List.getElem?_append, h]

/-- Two sequences of one length are equal when their lanes are. -/
theorem seq_ext {s t : Seq} (hl : s.length = t.length) (h : ∀ i < s.length, lane s i = lane t i) : s = t := by
  apply List.ext_getElem hl
  intro i h1 h2
  simpa [lane, List.getD_eq_getElem?_getD, h1, h2] using h i h1

theorem bitLength_zero : bitLength 0 = 0 := rfl

/-- R11: the bit length is the least `n` with `x < 2^n`. -/
theorem bitLength_le_iff (x n : Nat) : bitLength x ≤ n ↔ x < 2 ^ n := by
  unfold bitLength
  split
  · next h => subst h; simp
  · next h => rw [← Nat.log2_lt h]; omega

theorem lt_bitLength_iff (x n : Nat) : n < bitLength x ↔ 2 ^ n ≤ x := by
  rw [← not_iff_not, not_lt, bitLength_le_iff, not_le]

theorem lt_two_pow_bitLength (x : Nat) : x < 2 ^ bitLength x := (bitLength_le_iff x _).1 le_rfl

theorem bitLength_pos {x : Nat} (h : x ≠ 0) : 0 < bitLength x := by simp [bitLength, h]

theorem bitLength_eq_zero_iff (x : Nat) : bitLength x = 0 ↔ x = 0 := by
  unfold bitLength; split <;> simp_all

/-- The top bit of a non-zero number. -/
theorem testBit_bitLength_pred {x : Nat} (h : x ≠ 0) : x.testBit (bitLength x - 1) = true := by
  simpa [bitLength, h] using Nat.testBit_log2 h

theorem testBit_of_bitLength_le {x i : Nat} (h : bitLength x ≤ i) : x.testBit i = false :=
  Nat.testBit_lt_two_pow ((bitLength_le_iff x i).1 h)

theorem bitLength_shiftLeft {x : Nat} (h : x ≠ 0) (k : Nat) : bitLength (x <<< k) = bitLength x + k := by
  have hp : 0 < 2 ^ k := Nat.two_pow_pos k
  have hx := bitLength_pos h
  apply le_antisymm
  · rw [bitLength_le_iff, Nat.shiftLeft_eq, Nat.pow_add]
    exact Nat.mul_lt_mul_of_pos_right (lt_two_pow_bitLength x) hp
  · have h1 : 2 ^ (bitLength x - 1) ≤ x := (lt_bitLength_iff x _).1 (by omega)
    have h2 : bitLength x - 1 + k < bitLength (x <<< k) := by
      rw [lt_bitLength_iff, Nat.shiftLeft_eq, Nat.pow_add]
      exact Nat.mul_le_mul_right _ h1
    omega

namespace Machine

@[simp] theorem length_seqOf (opnd len : Nat) : (seqOf opnd len).length = len := by simp [seqOf]

theorem lane_seqOf (opnd len i : Nat) : lane (seqOf opnd len) i = (decide (i < len) && opnd.testBit i) :=
  lane_map_range _ _ _

@[simp] theorem length_fillLanes (cfg : Config) (s : Seq) (len : Nat) : (fillLanes cfg s len).length = cfg.maxLen := by
  simp [fillLanes]

theorem lane_fillLanes (cfg : Config) (s : Seq) (len i : Nat) :
    lane (fillLanes cfg s len) i = (decide (i < cfg.maxLen) && (decide (i < len) && lane s i)) := by
  rw [fillLanes, lane_map_range]
  by_cases h : i < len <;> simp [h]

@[simp] theorem length_expand (v width : Nat) : (expand v width).length = width := by simp [expand]

theorem lane_expand (v width i : Nat) : lane (expand v width) i = (decide (i < width) && v.testBit (width - 1 - i)) :=
  lane_map_range _ _ _

/-- R101: the value depends on the first `len` lanes only. -/
theorem toInteger_congr {s t : Seq} : ∀ {len : Nat}, (∀ i < len, lane s i = lane t i) → toInteger s len = toInteger t len
  | 0, _ => rfl
  | len + 1, h => by
    rw [toInteger, toInteger, toInteger_congr fun i hi => h i (by omega), h len (by omega)]

theorem toInteger_lt (s : Seq) : ∀ len : Nat, toInteger s len < 2 ^ len
  | 0 => by simp [toInteger]
  | len + 1 => by
    have := toInteger_lt s len
    have := Bool.toNat_le (lane s len)
    rw [toInteger, Nat.pow_succ]; omega

theorem testBit_toInteger (s : Seq) : ∀ (len i : Nat), (toInteger s len).testBit i = (decide (i < len) && lane s (len - 1 - i))
  | 0, i => by simp [toInteger]
  | len + 1, 0 => by
    simp only [toInteger, Nat.testBit_zero, Nat.add_sub_cancel, Nat.sub_zero]
    cases lane s len <;> simp
  | len + 1, i + 1 => by
    rw [toInteger, Nat.testBit_add_one]
    have e : (2 * toInteger s len + (lane s len).toNat) / 2 = toInteger s len := by
      have := Bool.toNat_le (lane s len); have : (lane s len).toNat < 2 := by omega
      omega
    rw [e, testBit_toInteger s len i]
    simp [show len - (i + 1) = len - 1 - i by omega]

theorem toInteger_eq_zero_iff (s : Seq) (len : Nat) : toInteger s len = 0 ↔ ∀ i < len, lane s i = false := by
  constructor
  · intro h i hi
    have := testBit_toInteger s len (len - 1 - i)
    rw [h] at this
    simpa [show len - 1 - i < len by omega, show len - 1 - (len - 1 - i) = i by omega] using this
  · intro h
    apply Nat.eq_of_testBit_eq
    intro i
    rw [testBit_toInteger]
    by_cases hi : i < len
    · simp [h (len - 1 - i) (by omega)]
    · simp [hi]

/-- The bits of a number that was expanded and read back. -/
theorem testBit_toInteger_expand (v width i : Nat) :
    (toInteger (expand v width) width).testBit i = (decide (i < width) && v.testBit i) := by
  rw [testBit_toInteger, lane_expand]
  by_cases h : i < width
  · simp [h, show width - 1 - i < width by omega, show width - 1 - (width - 1 - i) = i by omega]
  · simp [h]

theorem toInteger_append (s t : Seq) : ∀ n : Nat,
    toInteger (s ++ t) (s.length + n) = toInteger s s.length * 2 ^ n + toInteger t n
  | 0 => by
    simp [toInteger]
    exact toInteger_congr fun i hi => by rw [lane_append, if_pos hi]
  | n + 1 => by
    have e : lane (s ++ t) (s.length + n) = lane t n := by simp [lane_append]
    rw [← Nat.add_assoc, toInteger, toInteger_append s t n, toInteger, e, Nat.pow_succ]; ring

end Machine

end Sys2Proof
end

