-- ==== Sys2Proof/Laws/Division.lean ====
section
/-!
SUPPORT. The division loop: its guard, what an iteration does to the bit length, that its fuel is enough, and the
induction along it.
-/

namespace Sys2Proof.Machine

theorem divGuard_iff (r p : Nat) : divGuard r p = true ↔ r ≠ 0 ∧ p ≠ 0 ∧ bitLength p ≤ bitLength r := by
  simp [divGuard, and_assoc]

/-- R144: an iteration makes the bit length smaller. -/
theorem bitLength_divStep_lt {r p : Nat} (h : divGuard r p = true) : bitLength (divStep r p) < bitLength r := by
  obtain ⟨hr, hp, hle⟩ := (divGuard_iff r p).1 h
  have hpos := bitLength_pos hr
  have hs : bitLength (p <<< (bitLength r - bitLength p)) = bitLength r := by
    rw [bitLength_shiftLeft hp]; omega
  have hs0 : p <<< (bitLength r - bitLength p) ≠ 0 := by
    intro h0; rw [h0, bitLength_zero] at hs; omega
  suffices bitLength (divStep r p) ≤ bitLength r - 1 by omega
  rw [bitLength_le_iff, divStep]
  apply Nat.lt_pow_two_of_testBit
  intro i hi
  rw [Nat.testBit_xor]
  rcases Nat.eq_or_lt_of_le hi with rfl | hlt
  · have h1 := testBit_bitLength_pred hr
    have h2 := testBit_bitLength_pred hs0
    rw [hs] at h2
    rw [h1, h2]; rfl
  · rw [testBit_of_bitLength_le (by omega), testBit_of_bitLength_le (by omega)]; rfl

/-- More fuel than the bit length changes nothing: the loop has ended. -/
theorem divLoop_fuel : ∀ (f r p : Nat), bitLength r ≤ f → divLoop f r p = divLoop (bitLength r) r p := by
  suffices ∀ (n f g r p : Nat), bitLength r ≤ n → bitLength r ≤ f → bitLength r ≤ g → divLoop f r p = divLoop g r p from
    fun f r p h => this _ f (bitLength r) r p le_rfl h le_rfl
  intro n
  induction n with
  | zero =>
    intro f g r p hn _ _
    have : r = 0 := (bitLength_eq_zero_iff r).1 (by omega)
    subst this
    have e : ∀ f, divLoop f 0 p = 0 := by intro f; cases f <;> simp [divLoop, divGuard]
    rw [e, e]
  | succ n ih =>
    intro f g r p hn hf hg
    by_cases h : divGuard r p = true
    · have hlt := bitLength_divStep_lt h
      obtain ⟨f, rfl⟩ : ∃ k, f = k + 1 := ⟨f - 1, by omega⟩
      obtain ⟨g, rfl⟩ : ∃ k, g = k + 1 := ⟨g - 1, by omega⟩
      simp only [divLoop, h, if_true]
      exact ih f g _ p (by omega) (by omega) (by omega)
    · have e : ∀ f, divLoop f r p = r := by intro f; cases f <;> simp [divLoop, h]
      rw [e, e]

theorem divLoop_step {r p : Nat} (h : divGuard r p = true) :
    divLoop (bitLength r) r p = divLoop (bitLength (divStep r p)) (divStep r p) p := by
  have hlt := bitLength_divStep_lt h
  obtain ⟨n, hn⟩ : ∃ n, bitLength r = n + 1 := ⟨bitLength r - 1, by omega⟩
  rw [hn, divLoop, if_pos h, divLoop_fuel _ _ _ (by omega)]

theorem divLoop_done {r p : Nat} (h : divGuard r p = false) (f : Nat) : divLoop f r p = r := by
  cases f <;> simp [divLoop, h]

theorem divTurns_fuel : ∀ (f r p : Nat), bitLength r ≤ f → divTurns f r p = divTurns (bitLength r) r p := by
  suffices ∀ (n f g r p : Nat), bitLength r ≤ n → bitLength r ≤ f → bitLength r ≤ g → divTurns f r p = divTurns g r p from
    fun f r p h => this _ f (bitLength r) r p le_rfl h le_rfl
  intro n
  induction n with
  | zero =>
    intro f g r p hn _ _
    have : r = 0 := (bitLength_eq_zero_iff r).1 (by omega)
    subst this
    have e : ∀ f, divTurns f 0 p = 0 := by intro f; cases f <;> simp [divTurns, divGuard]
    rw [e, e]
  | succ n ih =>
    intro f g r p hn hf hg
    by_cases h : divGuard r p = true
    · have hlt := bitLength_divStep_lt h
      obtain ⟨f, rfl⟩ : ∃ k, f = k + 1 := ⟨f - 1, by omega⟩
      obtain ⟨g, rfl⟩ : ∃ k, g = k + 1 := ⟨g - 1, by omega⟩
      simp only [divTurns, h, if_true]
      rw [ih f g _ p (by omega) (by omega) (by omega)]
    · have e : ∀ f, divTurns f r p = 0 := by intro f; cases f <;> simp [divTurns, h]
      rw [e, e]

theorem divTurns_step {r p : Nat} (h : divGuard r p = true) :
    divTurns (bitLength r) r p = divTurns (bitLength (divStep r p)) (divStep r p) p + 1 := by
  have hlt := bitLength_divStep_lt h
  obtain ⟨n, hn⟩ : ∃ n, bitLength r = n + 1 := ⟨bitLength r - 1, by omega⟩
  rw [hn, divTurns, if_pos h, divTurns_fuel _ _ _ (by omega)]

theorem divTurns_done {r p : Nat} (h : divGuard r p = false) (f : Nat) : divTurns f r p = 0 := by
  cases f <;> simp [divTurns, h]

/-- Induction along the loop: a property of the pair that holds where the loop ends, and holds before an iteration when it
holds after it, holds everywhere. -/
theorem division_induction {p : Nat} {motive : Nat → Prop}
    (done : ∀ r, divGuard r p = false → motive r)
    (turn : ∀ r, divGuard r p = true → motive (divStep r p) → motive r) (r : Nat) : motive r := by
  suffices ∀ n r, bitLength r ≤ n → motive r from this _ r le_rfl
  intro n
  induction n with
  | zero =>
    intro r hr
    have : r = 0 := (bitLength_eq_zero_iff r).1 (by omega)
    subst this
    exact done 0 (by simp [divGuard])
  | succ n ih =>
    intro r hr
    cases h : divGuard r p with
    | false => exact done r h
    | true => exact turn r h (ih _ (by have := bitLength_divStep_lt h; omega))

/-- Where the loop ends, the remainder is shorter than the divisor. -/
theorem bitLength_divLoop_lt {p : Nat} (hp : p ≠ 0) (r : Nat) :
    bitLength (divLoop (bitLength r) r p) < bitLength p := by
  induction r using division_induction (p := p) with
  | done r h =>
    rw [divLoop_done h]
    by_contra hc
    have : divGuard r p = true := by
      rw [divGuard_iff]
      refine ⟨?_, hp, by omega⟩
      rintro rfl
      have := bitLength_pos hp
      rw [bitLength_zero] at hc; omega
    simp [this] at h
  | turn r h ih => rwa [divLoop_step h]

theorem divGuard_divLoop (r p : Nat) : divGuard (divLoop (bitLength r) r p) p = false := by
  induction r using division_induction (p := p) with
  | done r h => rwa [divLoop_done h]
  | turn r h ih => rwa [divLoop_step h]

/-- R144: the bound on the number of iterations. -/
theorem divTurns_le {p : Nat} (r : Nat) : divTurns (bitLength r) r p ≤ bitLength r + 1 - bitLength p := by
  induction r using division_induction (p := p) with
  | done r h => rw [divTurns_done h]; omega
  | turn r h ih =>
    have := bitLength_divStep_lt h
    have := ((divGuard_iff r p).1 h).2.2
    rw [divTurns_step h]; omega

end Sys2Proof.Machine
end

