-- ==== Sys2Proof/Laws/State.lean ====
section
/-!
SUPPORT. What each named update of the state writes and what it leaves: one lemma per field and update, so that no proof
unfolds a record update.
-/

namespace Sys2Proof.Machine

variable (s : State)

section respond
variable (code : Code) (payload : Payload)
@[simp] theorem State.respond_cfg : (s.respond code payload).cfg = s.cfg := rfl
@[simp] theorem State.respond_keySeq : (s.respond code payload).keySeq = s.keySeq := rfl
@[simp] theorem State.respond_keyLen : (s.respond code payload).keyLen = s.keyLen := rfl
@[simp] theorem State.respond_keyValid : (s.respond code payload).keyValid = s.keyValid := rfl
@[simp] theorem State.respond_dvdSeq : (s.respond code payload).dvdSeq = s.dvdSeq := rfl
@[simp] theorem State.respond_dvdLen : (s.respond code payload).dvdLen = s.dvdLen := rfl
@[simp] theorem State.respond_dvdValid : (s.respond code payload).dvdValid = s.dvdValid := rfl
@[simp] theorem State.respond_rem : (s.respond code payload).rem = s.rem := rfl
@[simp] theorem State.respond_remValid : (s.respond code payload).remValid = s.remValid := rfl
@[simp] theorem State.respond_fault : (s.respond code payload).fault = s.fault := rfl
@[simp] theorem State.respond_errCause : (s.respond code payload).errCause = s.errCause := rfl
@[simp] theorem State.respond_busy : (s.respond code payload).busy = s.busy := rfl
@[simp] theorem State.respond_wr : (s.respond code payload).wr = s.wr := rfl
@[simp] theorem State.respond_wp : (s.respond code payload).wp = s.wp := rfl
@[simp] theorem State.respond_wk : (s.respond code payload).wk = s.wk := rfl
@[simp] theorem State.respond_host : (s.respond code payload).host = s.host := rfl
@[simp] theorem State.respond_responses : (s.respond code payload).responses = s.responses ++ [⟨code, payload⟩] := rfl
@[simp] theorem State.respond_abandoned : (s.respond code payload).abandoned = s.abandoned := rfl
end respond

section latchError
variable (code : Code)
@[simp] theorem State.latchError_cfg : (s.latchError code).cfg = s.cfg := rfl
@[simp] theorem State.latchError_keySeq : (s.latchError code).keySeq = s.keySeq := rfl
@[simp] theorem State.latchError_keyLen : (s.latchError code).keyLen = s.keyLen := rfl
@[simp] theorem State.latchError_keyValid : (s.latchError code).keyValid = s.keyValid := rfl
@[simp] theorem State.latchError_dvdSeq : (s.latchError code).dvdSeq = s.dvdSeq := rfl
@[simp] theorem State.latchError_dvdLen : (s.latchError code).dvdLen = s.dvdLen := rfl
@[simp] theorem State.latchError_dvdValid : (s.latchError code).dvdValid = s.dvdValid := rfl
@[simp] theorem State.latchError_rem : (s.latchError code).rem = s.rem := rfl
@[simp] theorem State.latchError_remValid : (s.latchError code).remValid = s.remValid := rfl
@[simp] theorem State.latchError_fault : (s.latchError code).fault = true := rfl
@[simp] theorem State.latchError_errCause : (s.latchError code).errCause = code.bits := rfl
@[simp] theorem State.latchError_busy : (s.latchError code).busy = s.busy := rfl
@[simp] theorem State.latchError_wr : (s.latchError code).wr = s.wr := rfl
@[simp] theorem State.latchError_wp : (s.latchError code).wp = s.wp := rfl
@[simp] theorem State.latchError_wk : (s.latchError code).wk = s.wk := rfl
@[simp] theorem State.latchError_host : (s.latchError code).host = s.host := rfl
@[simp] theorem State.latchError_responses : (s.latchError code).responses = s.responses := rfl
@[simp] theorem State.latchError_abandoned : (s.latchError code).abandoned = s.abandoned := rfl
end latchError

section resetBlock
@[simp] theorem State.resetBlock_cfg : s.resetBlock.cfg = s.cfg := rfl
@[simp] theorem State.resetBlock_keySeq : s.resetBlock.keySeq = List.replicate s.cfg.maxLen false := rfl
@[simp] theorem State.resetBlock_keyLen : s.resetBlock.keyLen = 0 := rfl
@[simp] theorem State.resetBlock_keyValid : s.resetBlock.keyValid = false := rfl
@[simp] theorem State.resetBlock_dvdSeq : s.resetBlock.dvdSeq = List.replicate s.cfg.maxLen false := rfl
@[simp] theorem State.resetBlock_dvdLen : s.resetBlock.dvdLen = 0 := rfl
@[simp] theorem State.resetBlock_dvdValid : s.resetBlock.dvdValid = false := rfl
@[simp] theorem State.resetBlock_rem : s.resetBlock.rem = 0 := rfl
@[simp] theorem State.resetBlock_remValid : s.resetBlock.remValid = false := rfl
@[simp] theorem State.resetBlock_fault : s.resetBlock.fault = false := rfl
@[simp] theorem State.resetBlock_errCause : s.resetBlock.errCause = 0 := rfl
@[simp] theorem State.resetBlock_busy : s.resetBlock.busy = false := rfl
@[simp] theorem State.resetBlock_wr : s.resetBlock.wr = 0 := rfl
@[simp] theorem State.resetBlock_wp : s.resetBlock.wp = 0 := rfl
@[simp] theorem State.resetBlock_wk : s.resetBlock.wk = 0 := rfl
@[simp] theorem State.resetBlock_host : s.resetBlock.host = s.host := rfl
@[simp] theorem State.resetBlock_responses : s.resetBlock.responses = s.responses := rfl
@[simp] theorem State.resetBlock_abandoned : s.resetBlock.abandoned = s.abandoned + s.busy.toNat := rfl
end resetBlock

section loadKey
variable (len : Byte) (q : Seq)
@[simp] theorem State.loadKey_cfg : (s.loadKey len q).cfg = s.cfg := rfl
@[simp] theorem State.loadKey_keySeq : (s.loadKey len q).keySeq = fillLanes s.cfg q len.toNat := rfl
@[simp] theorem State.loadKey_keyLen : (s.loadKey len q).keyLen = len := rfl
@[simp] theorem State.loadKey_keyValid : (s.loadKey len q).keyValid = true := rfl
@[simp] theorem State.loadKey_dvdSeq : (s.loadKey len q).dvdSeq = s.dvdSeq := rfl
@[simp] theorem State.loadKey_dvdLen : (s.loadKey len q).dvdLen = s.dvdLen := rfl
@[simp] theorem State.loadKey_dvdValid : (s.loadKey len q).dvdValid = s.dvdValid := rfl
@[simp] theorem State.loadKey_rem : (s.loadKey len q).rem = s.rem := rfl
@[simp] theorem State.loadKey_remValid : (s.loadKey len q).remValid = s.remValid := rfl
@[simp] theorem State.loadKey_fault : (s.loadKey len q).fault = s.fault := rfl
@[simp] theorem State.loadKey_errCause : (s.loadKey len q).errCause = s.errCause := rfl
@[simp] theorem State.loadKey_busy : (s.loadKey len q).busy = s.busy := rfl
@[simp] theorem State.loadKey_wr : (s.loadKey len q).wr = s.wr := rfl
@[simp] theorem State.loadKey_wp : (s.loadKey len q).wp = s.wp := rfl
@[simp] theorem State.loadKey_wk : (s.loadKey len q).wk = s.wk := rfl
@[simp] theorem State.loadKey_host : (s.loadKey len q).host = s.host := rfl
@[simp] theorem State.loadKey_responses : (s.loadKey len q).responses = s.responses := rfl
@[simp] theorem State.loadKey_abandoned : (s.loadKey len q).abandoned = s.abandoned := rfl
end loadKey

section loadDvd
variable (len : Byte) (q : Seq)
@[simp] theorem State.loadDvd_cfg : (s.loadDvd len q).cfg = s.cfg := rfl
@[simp] theorem State.loadDvd_keySeq : (s.loadDvd len q).keySeq = s.keySeq := rfl
@[simp] theorem State.loadDvd_keyLen : (s.loadDvd len q).keyLen = s.keyLen := rfl
@[simp] theorem State.loadDvd_keyValid : (s.loadDvd len q).keyValid = s.keyValid := rfl
@[simp] theorem State.loadDvd_dvdSeq : (s.loadDvd len q).dvdSeq = fillLanes s.cfg q len.toNat := rfl
@[simp] theorem State.loadDvd_dvdLen : (s.loadDvd len q).dvdLen = len := rfl
@[simp] theorem State.loadDvd_dvdValid : (s.loadDvd len q).dvdValid = true := rfl
@[simp] theorem State.loadDvd_rem : (s.loadDvd len q).rem = s.rem := rfl
@[simp] theorem State.loadDvd_remValid : (s.loadDvd len q).remValid = s.remValid := rfl
@[simp] theorem State.loadDvd_fault : (s.loadDvd len q).fault = s.fault := rfl
@[simp] theorem State.loadDvd_errCause : (s.loadDvd len q).errCause = s.errCause := rfl
@[simp] theorem State.loadDvd_busy : (s.loadDvd len q).busy = s.busy := rfl
@[simp] theorem State.loadDvd_wr : (s.loadDvd len q).wr = s.wr := rfl
@[simp] theorem State.loadDvd_wp : (s.loadDvd len q).wp = s.wp := rfl
@[simp] theorem State.loadDvd_wk : (s.loadDvd len q).wk = s.wk := rfl
@[simp] theorem State.loadDvd_host : (s.loadDvd len q).host = s.host := rfl
@[simp] theorem State.loadDvd_responses : (s.loadDvd len q).responses = s.responses := rfl
@[simp] theorem State.loadDvd_abandoned : (s.loadDvd len q).abandoned = s.abandoned := rfl
end loadDvd

section acceptCrc
@[simp] theorem State.acceptCrc_cfg : s.acceptCrc.cfg = s.cfg := rfl
@[simp] theorem State.acceptCrc_keySeq : s.acceptCrc.keySeq = s.keySeq := rfl
@[simp] theorem State.acceptCrc_keyLen : s.acceptCrc.keyLen = s.keyLen := rfl
@[simp] theorem State.acceptCrc_keyValid : s.acceptCrc.keyValid = s.keyValid := rfl
@[simp] theorem State.acceptCrc_dvdSeq : s.acceptCrc.dvdSeq = s.dvdSeq := rfl
@[simp] theorem State.acceptCrc_dvdLen : s.acceptCrc.dvdLen = s.dvdLen := rfl
@[simp] theorem State.acceptCrc_dvdValid : s.acceptCrc.dvdValid = s.dvdValid := rfl
@[simp] theorem State.acceptCrc_rem : s.acceptCrc.rem = s.rem := rfl
@[simp] theorem State.acceptCrc_remValid : s.acceptCrc.remValid = s.remValid := rfl
@[simp] theorem State.acceptCrc_fault : s.acceptCrc.fault = s.fault := rfl
@[simp] theorem State.acceptCrc_errCause : s.acceptCrc.errCause = s.errCause := rfl
@[simp] theorem State.acceptCrc_busy : s.acceptCrc.busy = true := rfl
@[simp] theorem State.acceptCrc_wr : s.acceptCrc.wr = toInteger s.dvdSeq s.dvdLen.toNat := rfl
@[simp] theorem State.acceptCrc_wp : s.acceptCrc.wp = toInteger s.keySeq s.keyLen.toNat := rfl
@[simp] theorem State.acceptCrc_wk : s.acceptCrc.wk = s.keyLen := rfl
@[simp] theorem State.acceptCrc_host : s.acceptCrc.host = s.host := rfl
@[simp] theorem State.acceptCrc_responses : s.acceptCrc.responses = s.responses := rfl
@[simp] theorem State.acceptCrc_abandoned : s.acceptCrc.abandoned = s.abandoned := rfl
end acceptCrc

section iterate
@[simp] theorem State.iterate_cfg : s.iterate.cfg = s.cfg := rfl
@[simp] theorem State.iterate_keySeq : s.iterate.keySeq = s.keySeq := rfl
@[simp] theorem State.iterate_keyLen : s.iterate.keyLen = s.keyLen := rfl
@[simp] theorem State.iterate_keyValid : s.iterate.keyValid = s.keyValid := rfl
@[simp] theorem State.iterate_dvdSeq : s.iterate.dvdSeq = s.dvdSeq := rfl
@[simp] theorem State.iterate_dvdLen : s.iterate.dvdLen = s.dvdLen := rfl
@[simp] theorem State.iterate_dvdValid : s.iterate.dvdValid = s.dvdValid := rfl
@[simp] theorem State.iterate_rem : s.iterate.rem = s.rem := rfl
@[simp] theorem State.iterate_remValid : s.iterate.remValid = s.remValid := rfl
@[simp] theorem State.iterate_fault : s.iterate.fault = s.fault := rfl
@[simp] theorem State.iterate_errCause : s.iterate.errCause = s.errCause := rfl
@[simp] theorem State.iterate_busy : s.iterate.busy = s.busy := rfl
@[simp] theorem State.iterate_wr : s.iterate.wr = divStep s.wr s.wp := rfl
@[simp] theorem State.iterate_wp : s.iterate.wp = s.wp := rfl
@[simp] theorem State.iterate_wk : s.iterate.wk = s.wk := rfl
@[simp] theorem State.iterate_host : s.iterate.host = s.host := rfl
@[simp] theorem State.iterate_responses : s.iterate.responses = s.responses := rfl
@[simp] theorem State.iterate_abandoned : s.iterate.abandoned = s.abandoned := rfl
end iterate

section finishWrites
@[simp] theorem State.finishWrites_cfg : s.finishWrites.cfg = s.cfg := rfl
@[simp] theorem State.finishWrites_keySeq : s.finishWrites.keySeq = s.keySeq := rfl
@[simp] theorem State.finishWrites_keyLen : s.finishWrites.keyLen = s.keyLen := rfl
@[simp] theorem State.finishWrites_keyValid : s.finishWrites.keyValid = s.keyValid := rfl
@[simp] theorem State.finishWrites_dvdSeq : s.finishWrites.dvdSeq = s.dvdSeq := rfl
@[simp] theorem State.finishWrites_dvdLen : s.finishWrites.dvdLen = s.dvdLen := rfl
@[simp] theorem State.finishWrites_dvdValid : s.finishWrites.dvdValid = s.dvdValid := rfl
@[simp] theorem State.finishWrites_rem : s.finishWrites.rem = s.finalRemainder := rfl
@[simp] theorem State.finishWrites_remValid : s.finishWrites.remValid = true := rfl
@[simp] theorem State.finishWrites_fault : s.finishWrites.fault = s.fault := rfl
@[simp] theorem State.finishWrites_errCause : s.finishWrites.errCause = s.errCause := rfl
@[simp] theorem State.finishWrites_busy : s.finishWrites.busy = false := rfl
@[simp] theorem State.finishWrites_wr : s.finishWrites.wr = s.wr := rfl
@[simp] theorem State.finishWrites_wp : s.finishWrites.wp = s.wp := rfl
@[simp] theorem State.finishWrites_wk : s.finishWrites.wk = s.wk := rfl
@[simp] theorem State.finishWrites_host : s.finishWrites.host = s.host := rfl
@[simp] theorem State.finishWrites_responses : s.finishWrites.responses = s.responses := rfl
@[simp] theorem State.finishWrites_abandoned : s.finishWrites.abandoned = s.abandoned := rfl
end finishWrites

section finish
@[simp] theorem State.finish_cfg : s.finish.cfg = s.cfg := rfl
@[simp] theorem State.finish_keySeq : s.finish.keySeq = s.keySeq := rfl
@[simp] theorem State.finish_keyLen : s.finish.keyLen = s.keyLen := rfl
@[simp] theorem State.finish_keyValid : s.finish.keyValid = s.keyValid := rfl
@[simp] theorem State.finish_dvdSeq : s.finish.dvdSeq = s.dvdSeq := rfl
@[simp] theorem State.finish_dvdLen : s.finish.dvdLen = s.dvdLen := rfl
@[simp] theorem State.finish_dvdValid : s.finish.dvdValid = s.dvdValid := rfl
@[simp] theorem State.finish_rem : s.finish.rem = s.finalRemainder := rfl
@[simp] theorem State.finish_remValid : s.finish.remValid = true := rfl
@[simp] theorem State.finish_fault : s.finish.fault = s.fault := rfl
@[simp] theorem State.finish_errCause : s.finish.errCause = s.errCause := rfl
@[simp] theorem State.finish_busy : s.finish.busy = false := rfl
@[simp] theorem State.finish_wr : s.finish.wr = s.wr := rfl
@[simp] theorem State.finish_wp : s.finish.wp = s.wp := rfl
@[simp] theorem State.finish_wk : s.finish.wk = s.wk := rfl
@[simp] theorem State.finish_host : s.finish.host = s.host := rfl
@[simp] theorem State.finish_responses : s.finish.responses = s.responses ++ [⟨.ok, .int s.finalRemainder⟩] := rfl
@[simp] theorem State.finish_abandoned : s.finish.abandoned = s.abandoned := rfl
end finish

section withHost
variable (rest : List HostMove)
@[simp] theorem State.withHost_cfg : (s.withHost rest).cfg = s.cfg := rfl
@[simp] theorem State.withHost_keySeq : (s.withHost rest).keySeq = s.keySeq := rfl
@[simp] theorem State.withHost_keyLen : (s.withHost rest).keyLen = s.keyLen := rfl
@[simp] theorem State.withHost_keyValid : (s.withHost rest).keyValid = s.keyValid := rfl
@[simp] theorem State.withHost_dvdSeq : (s.withHost rest).dvdSeq = s.dvdSeq := rfl
@[simp] theorem State.withHost_dvdLen : (s.withHost rest).dvdLen = s.dvdLen := rfl
@[simp] theorem State.withHost_dvdValid : (s.withHost rest).dvdValid = s.dvdValid := rfl
@[simp] theorem State.withHost_rem : (s.withHost rest).rem = s.rem := rfl
@[simp] theorem State.withHost_remValid : (s.withHost rest).remValid = s.remValid := rfl
@[simp] theorem State.withHost_fault : (s.withHost rest).fault = s.fault := rfl
@[simp] theorem State.withHost_errCause : (s.withHost rest).errCause = s.errCause := rfl
@[simp] theorem State.withHost_busy : (s.withHost rest).busy = s.busy := rfl
@[simp] theorem State.withHost_wr : (s.withHost rest).wr = s.wr := rfl
@[simp] theorem State.withHost_wp : (s.withHost rest).wp = s.wp := rfl
@[simp] theorem State.withHost_wk : (s.withHost rest).wk = s.wk := rfl
@[simp] theorem State.withHost_host : (s.withHost rest).host = rest := rfl
@[simp] theorem State.withHost_responses : (s.withHost rest).responses = s.responses := rfl
@[simp] theorem State.withHost_abandoned : (s.withHost rest).abandoned = s.abandoned := rfl
end withHost

section presentCommand
variable (w : Word) (opnd : Nat)
@[simp] theorem State.presentCommand_cfg : (s.presentCommand w opnd).cfg = s.cfg := rfl
@[simp] theorem State.presentCommand_keySeq : (s.presentCommand w opnd).keySeq = s.keySeq := rfl
@[simp] theorem State.presentCommand_keyLen : (s.presentCommand w opnd).keyLen = s.keyLen := rfl
@[simp] theorem State.presentCommand_keyValid : (s.presentCommand w opnd).keyValid = s.keyValid := rfl
@[simp] theorem State.presentCommand_dvdSeq : (s.presentCommand w opnd).dvdSeq = s.dvdSeq := rfl
@[simp] theorem State.presentCommand_dvdLen : (s.presentCommand w opnd).dvdLen = s.dvdLen := rfl
@[simp] theorem State.presentCommand_dvdValid : (s.presentCommand w opnd).dvdValid = s.dvdValid := rfl
@[simp] theorem State.presentCommand_rem : (s.presentCommand w opnd).rem = s.rem := rfl
@[simp] theorem State.presentCommand_remValid : (s.presentCommand w opnd).remValid = s.remValid := rfl
@[simp] theorem State.presentCommand_fault : (s.presentCommand w opnd).fault = s.fault := rfl
@[simp] theorem State.presentCommand_errCause : (s.presentCommand w opnd).errCause = s.errCause := rfl
@[simp] theorem State.presentCommand_busy : (s.presentCommand w opnd).busy = false := rfl
@[simp] theorem State.presentCommand_wr : (s.presentCommand w opnd).wr = s.wr := rfl
@[simp] theorem State.presentCommand_wp : (s.presentCommand w opnd).wp = s.wp := rfl
@[simp] theorem State.presentCommand_wk : (s.presentCommand w opnd).wk = s.wk := rfl
@[simp] theorem State.presentCommand_host : (s.presentCommand w opnd).host = .command w opnd :: s.host := rfl
@[simp] theorem State.presentCommand_responses : (s.presentCommand w opnd).responses = s.responses := rfl
@[simp] theorem State.presentCommand_abandoned : (s.presentCommand w opnd).abandoned = s.abandoned := rfl
end presentCommand

end Sys2Proof.Machine
end

