-- ==== Sys2Proof/Laws/Ops.lean ====
section
/-!
SUPPORT. What each shared operation can do, said once, and the inversion of the step: if it answers a next state, which of
the agents moved and what it did.
-/

namespace Sys2Proof.Machine

/-- R184: taking an error always answers a next state, and this one. -/
theorem raiseError_eq (c : Code) (s : State) :
    raiseError c s =
      .next { s with fault := true, errCause := c.bits, responses := s.responses ++ [⟨c, .none⟩] } := rfl

theorem respondOk_eq (p : Payload) (s : State) :
    respondOk p s = .next { s with responses := s.responses ++ [⟨.ok, p⟩] } := rfl

/-- R182 in the fault state. -/
theorem unlessFaulted_faulted {s : State} (h : s.fault = true) (body : Host.Outcome State Fault Refusal) :
    unlessFaulted s body = .next { s with responses := s.responses ++ [⟨.faulted, .none⟩] } := by
  rw [unlessFaulted, if_pos h]; rfl

/-- R182 outside it. -/
theorem unlessFaulted_clear {s : State} (h : s.fault = false) (body : Host.Outcome State Fault Refusal) :
    unlessFaulted s body = body := by
  rw [unlessFaulted, if_neg (by simp [h])]

/-- R133: what an accepted CRC leaves. -/
theorem acceptCrc_eq (s : State) :
    s.acceptCrc = { s with wr := toInteger s.dvdSeq s.dvdLen.toNat, wp := toInteger s.keySeq s.keyLen.toNat,
                           wk := s.keyLen, busy := true } := rfl

/-- A register filled with the sequence an operand carries holds the operand's bits (R76, R131, R132). -/
theorem fillLanes_seqOf (cfg : Config) (opnd len : Nat) :
    fillLanes cfg (seqOf opnd len) len = (List.range cfg.maxLen).map fun i => if i < len then opnd.testBit i else false := by
  rw [fillLanes]
  refine List.map_congr_left fun i _ => ?_
  by_cases h : i < len <;> simp [lane_seqOf, h]

/-- The value of a sequence in a register is its value on the operand, when it fits the register. -/
theorem toInteger_fillLanes {cfg : Config} {len : Nat} (h : len ≤ cfg.maxLen) (s : Seq) :
    toInteger (fillLanes cfg s len) len = toInteger s len :=
  toInteger_congr fun i hi => by simp [lane_fillLanes, hi, show i < cfg.maxLen by omega]

/-- Every command answers a next state: no path of a meaning is a fault or a refusal. -/
theorem exec_next (i : Instr) (s : State) : ∃ t, exec i s = .next t := by
  cases i <;>
    simp only [exec, execNop, execLdkey, execLddvd, execCrc, execRdrem, execRdstat, execS2i, execI2s, execDigits,
      unlessFaulted, raiseError, respondOk] <;> (try split_ifs) <;> exact ⟨_, rfl⟩

/-- The engine's step is ITERATE or FINISH. -/
theorem engineStep_cases {s t : State} (h : engineStep s = .next t) :
    (divGuard s.wr s.wp = true ∧ t = s.iterate) ∨ (divGuard s.wr s.wp = false ∧ t = s.finish) := by
  simp only [engineStep, Host.Outcome.next.injEq] at h
  cases hg : divGuard s.wr s.wp <;> simp [hg] at h <;> simp [h]

/-- R210: where the next step is a reset, it resets the block, a held command staying presented. -/
theorem step_of_resetMove {s : State} {rest : List HostMove} (h : s.resetMove = some rest) :
    step s = .next (s.withHost rest).resetBlock := by
  unfold State.resetMove at h
  cases hb : s.busy with
  | false =>
    simp only [hb, Bool.false_eq_true, if_false] at h
    split at h
    · next r hh => simp_all [step, moveReset]
    · cases h
  | true =>
    simp only [hb, if_true] at h
    unfold resetWhileBusy at h
    split at h
    · next r hh => simp_all [step, moveReset]
    · next w o r hh => cases h; simp [step, hh, moveCommand, hb, moveHeld, moveReset]
    · cases h

/-- R214, R220: while BUSY = 1 a step that is no reset is the engine's. -/
theorem step_of_turn {s : State} (hb : s.busy = true) (h : s.resetMove = none) :
    step s = engineStep (s.withHost (movesAfterTurn s.host)) := by
  have same : s.withHost s.host = s := rfl
  simp only [State.resetMove, hb, if_true] at h
  unfold step
  split
  · next w o rest hh =>
    rw [hh] at h same ⊢
    simp only [moveCommand, hb, if_true, moveHeld]
    cases rest with
    | nil => simp [movesAfterTurn, same]
    | cons m later => cases m <;> simp_all [movesAfterTurn, resetWhileBusy]
  · next rest hh => simp [hh, moveWait, hb, movesAfterTurn]
  · next rest hh => simp [hh, resetWhileBusy] at h
  · next hh => rw [hh] at same ⊢; simp [moveNone, hb, movesAfterTurn, same]

/-- Where BUSY = 0, the next step is a reset only if the host's next move is. -/
theorem resetMove_idle {s : State} (hb : s.busy = false) (h : ∀ rest, s.host ≠ .reset :: rest) : s.resetMove = none := by
  simp only [State.resetMove, hb, Bool.false_eq_true, if_false]

/-- What a step can do: run the presented command, let the engine move (a wait being used up or not), reset, or hold the
state. -/
theorem step_cases {s t : State} (h : step s = .next t) :
    (∃ w o rest, s.busy = false ∧ s.host = .command w o :: rest ∧ s.resetMove = none ∧
      runCommand w o (s.withHost rest) = .next t) ∨
    (s.busy = true ∧ s.resetMove = none ∧ engineStep (s.withHost (movesAfterTurn s.host)) = .next t) ∨
    (∃ rest, s.resetMove = some rest ∧ t = (s.withHost rest).resetBlock) ∨
    (s.busy = false ∧ s.host = [] ∧ s.resetMove = none ∧ t = s) := by
  cases hr : s.resetMove with
  | some rest =>
    rw [step_of_resetMove hr] at h
    exact .inr (.inr (.inl ⟨rest, rfl, by simpa using h.symm⟩))
  | none =>
    cases hb : s.busy with
    | true => exact .inr (.inl ⟨rfl, rfl, by rwa [step_of_turn hb hr] at h⟩)
    | false =>
      unfold step at h
      split at h
      · next w o rest hh => exact .inl ⟨w, o, rest, rfl, hh, rfl, by simpa [moveCommand, hb] using h⟩
      · next rest hh => simp [moveWait, hb] at h
      · next rest hh => simp [State.resetMove, hb, hh] at hr
      · next hh => exact .inr (.inr (.inr ⟨rfl, hh, rfl, by simpa [moveNone, hb] using h.symm⟩))

/-- What a command that is taken can do, decoded or not. -/
theorem runCommand_cases {w : Word} {o : Nat} {s t : State} (h : runCommand w o s = .next t) :
    (∃ i, decode w o = .ok i ∧ exec i s = .next t) ∨
    (∃ e, decode w o = .error e ∧ s.fault = false ∧ t = (s.latchError .eIllegal).respond .eIllegal .none) ∨
    (∃ e, decode w o = .error e ∧ s.fault = true ∧ t = s.respond .faulted .none) := by
  unfold runCommand at h
  cases hd : decode w o with
  | ok i => exact .inl ⟨i, rfl, by simpa [hd] using h⟩
  | error e =>
    simp only [hd, runIllegal] at h
    cases hf : s.fault with
    | false => exact .inr (.inl ⟨e, rfl, rfl, by rw [unlessFaulted_clear hf] at h; simpa [raiseError] using h.symm⟩)
    | true => exact .inr (.inr ⟨e, rfl, rfl, by simpa [unlessFaulted, hf] using h.symm⟩)

/-- R182: in the fault state every command but RDSTAT answers FAULTED and does nothing. -/
theorem exec_faulted {i : Instr} {s : State} (h : s.fault = true) (hi : i ≠ .rdstat) :
    exec i s = .next (s.respond .faulted .none) := by
  cases i with
  | rdstat => exact absurd rfl hi
  | nop => exact unlessFaulted_faulted h _
  | ldkey len o => exact unlessFaulted_faulted h _
  | lddvd len o => exact unlessFaulted_faulted h _
  | crc => exact unlessFaulted_faulted h _
  | rdrem => exact unlessFaulted_faulted h _
  | s2i len o => exact unlessFaulted_faulted h _
  | i2s width o => exact unlessFaulted_faulted h _
  | digits len start stop o => exact unlessFaulted_faulted h _

/-- What a command can do to the state: it is refused in the fault state, it raises one of the errors, it answers and
changes no register, it loads KEY or DVD, or it starts a division. -/
theorem exec_cases {i : Instr} {s t : State} (h : exec i s = .next t) :
    (s.fault = true ∧ i ≠ .rdstat ∧ t = s.respond .faulted .none) ∨
    (s.fault = false ∧ ∃ c, c ≠ .ok ∧ c ≠ .faulted ∧ t = (s.latchError c).respond c .none) ∨
    (∃ p, t = s.respond .ok p ∧ (∀ len o, i ≠ .ldkey len o) ∧ (∀ len o, i ≠ .lddvd len o) ∧ i ≠ .crc) ∨
    (∃ len o, i = .ldkey len o ∧ s.fault = false ∧ 2 ≤ len.toNat ∧ len.toNat ≤ s.cfg.maxLen ∧
      toInteger (seqOf o len.toNat) len.toNat ≠ 0 ∧ t = (s.loadKey len (seqOf o len.toNat)).respond .ok .none) ∨
    (∃ len o, i = .lddvd len o ∧ s.fault = false ∧ len.toNat ≤ s.cfg.maxLen ∧
      t = (s.loadDvd len (seqOf o len.toNat)).respond .ok .none) ∨
    (i = .crc ∧ s.fault = false ∧ s.keyValid = true ∧ s.dvdValid = true ∧ t = s.acceptCrc) := by
  by_cases hr : i = .rdstat
  · subst hr
    exact .inr (.inr (.inl ⟨_, by simpa [exec, execRdstat, respondOk] using h.symm, by simp, by simp, by simp⟩))
  cases hf : s.fault with
  | true =>
    rw [exec_faulted hf hr] at h
    exact .inl ⟨rfl, hr, by simpa using h.symm⟩
  | false =>
    have raises : ∀ c, c ≠ .ok → c ≠ .faulted → raiseError c s = .next t →
        false = false ∧ ∃ c, c ≠ .ok ∧ c ≠ .faulted ∧ t = (s.latchError c).respond c .none :=
      fun c h1 h2 h3 => ⟨rfl, c, h1, h2, by simpa [raiseError] using h3.symm⟩
    cases i with
    | rdstat => exact absurd rfl hr
    | nop =>
      simp only [exec, execNop, unlessFaulted_clear hf, respondOk, Host.Outcome.next.injEq] at h
      exact .inr (.inr (.inl ⟨_, h.symm, by simp, by simp, by simp⟩))
    | rdrem =>
      simp only [exec, execRdrem, unlessFaulted_clear hf] at h
      split at h
      · exact .inr (.inl (raises _ (by decide) (by decide) h))
      · exact .inr (.inr (.inl ⟨_, by simpa [respondOk] using h.symm, by simp, by simp, by simp⟩))
    | s2i len o =>
      simp only [exec, execS2i, unlessFaulted_clear hf] at h
      split at h
      · exact .inr (.inl (raises _ (by decide) (by decide) h))
      · exact .inr (.inr (.inl ⟨_, by simpa [respondOk] using h.symm, by simp, by simp, by simp⟩))
    | i2s width o =>
      simp only [exec, execI2s, unlessFaulted_clear hf] at h
      split at h
      · exact .inr (.inl (raises _ (by decide) (by decide) h))
      · split at h
        · exact .inr (.inl (raises _ (by decide) (by decide) h))
        · exact .inr (.inr (.inl ⟨_, by simpa [respondOk] using h.symm, by simp, by simp, by simp⟩))
    | digits len start stop o =>
      simp only [exec, execDigits, unlessFaulted_clear hf] at h
      split at h
      · exact .inr (.inl (raises _ (by decide) (by decide) h))
      · split at h
        · exact .inr (.inl (raises _ (by decide) (by decide) h))
        · exact .inr (.inr (.inl ⟨_, by simpa [respondOk] using h.symm, by simp, by simp, by simp⟩))
    | ldkey len o =>
      simp only [exec, execLdkey, unlessFaulted_clear hf] at h
      split at h
      · exact .inr (.inl (raises _ (by decide) (by decide) h))
      · split at h
        · exact .inr (.inl (raises _ (by decide) (by decide) h))
        · exact .inr (.inr (.inr (.inl ⟨len, o, rfl, rfl, by omega, by omega, ‹_›, by simpa [respondOk] using h.symm⟩)))
    | lddvd len o =>
      simp only [exec, execLddvd, unlessFaulted_clear hf] at h
      split at h
      · exact .inr (.inl (raises _ (by decide) (by decide) h))
      · exact .inr (.inr (.inr (.inr (.inl ⟨len, o, rfl, rfl, by omega, by simpa [respondOk] using h.symm⟩))))
    | crc =>
      simp only [exec, execCrc, unlessFaulted_clear hf] at h
      split at h
      · exact .inr (.inl (raises _ (by decide) (by decide) h))
      · split at h
        · exact .inr (.inl (raises _ (by decide) (by decide) h))
        · exact .inr (.inr (.inr (.inr (.inr ⟨rfl, rfl, by simp_all, by simp_all, by simpa using h.symm⟩))))

end Sys2Proof.Machine
end

