-- ==== Sys2Proof/Laws/PerInstr.lean ====
section
/-!
SUPPORT. Statements about every command as syntax, one lemma per constructor.
-/

namespace Sys2Proof.Laws.OpcodeRow

/-- The word a command is encoded to is in a row of the opcode map (R75), and its opcode is one of 0x01 to 0x09. -/
def Statement (i : Instr) : Prop :=
  (∃ row ∈ opcodeTable, encodeWord i &&& row.mask = row.pattern) ∧
    1 ≤ (fieldOP (encodeWord i)).toNat ∧ (fieldOP (encodeWord i)).toNat ≤ 9

theorem nop : Statement .nop := by unfold Statement; decide
theorem crc : Statement .crc := by unfold Statement; decide
theorem rdrem : Statement .rdrem := by unfold Statement; decide
theorem rdstat : Statement .rdstat := by unfold Statement; decide

theorem ldkey (len : Byte) (opnd : Nat) : Statement (.ldkey len opnd) :=
  ⟨⟨⟨"LDKEY", 0x00000002, 0xFFFF00FF⟩, by decide, (and_maskFieldA_iff _ 0x02).2 (by simp [encodeWord])⟩, by simp [encodeWord]⟩

theorem lddvd (len : Byte) (opnd : Nat) : Statement (.lddvd len opnd) :=
  ⟨⟨⟨"LDDVD", 0x00000003, 0xFFFF00FF⟩, by decide, (and_maskFieldA_iff _ 0x03).2 (by simp [encodeWord])⟩, by simp [encodeWord]⟩

theorem s2i (len : Byte) (opnd : Nat) : Statement (.s2i len opnd) :=
  ⟨⟨⟨"S2I", 0x00000007, 0xFFFF00FF⟩, by decide, (and_maskFieldA_iff _ 0x07).2 (by simp [encodeWord])⟩, by simp [encodeWord]⟩

theorem i2s (width : Byte) (opnd : Nat) : Statement (.i2s width opnd) :=
  ⟨⟨⟨"I2S", 0x00000008, 0xFFFF00FF⟩, by decide, (and_maskFieldA_iff _ 0x08).2 (by simp [encodeWord])⟩, by simp [encodeWord]⟩

theorem digits (len start stop : Byte) (opnd : Nat) : Statement (.digits len start stop opnd) :=
  ⟨⟨⟨"DIGITS", 0x00000009, 0x000000FF⟩, by decide, (and_maskAllFields_iff _ 0x09).2 (by simp [encodeWord])⟩,
    by simp [encodeWord]⟩

end Sys2Proof.Laws.OpcodeRow
end

