-- ==== Sys2Proof/Laws/Polynomial.lean ====
section
/-!
SUPPORT. Integers as polynomials over GF(2): XOR is addition, a shift is a power of x, and the loop computes a remainder.
-/

namespace Sys2Proof.Machine

open Polynomial

theorem coeff_natPoly (v j : Nat) : (natPoly v).coeff j = if v.testBit j then 1 else 0 := by
  rw [natPoly, finsetSum_coeff]
  have e : ∀ i, (if v.testBit i = true then (X : (ZMod 2)[X]) ^ i else 0).coeff j = if i = j ∧ v.testBit j then 1 else 0 := by
    intro i
    by_cases h : i = j
    · subst h; cases v.testBit i <;> simp
    · cases v.testBit i <;> simp [coeff_X_pow, Ne.symm h, h]
  simp only [e]
  by_cases h : v.testBit j
  · have : j < bitLength v := by
      by_contra hc
      rw [testBit_of_bitLength_le (by omega)] at h; simp at h
    simp [h, this]
  · simp [h]

theorem natPoly_xor (a b : Nat) : natPoly (a ^^^ b) = natPoly a + natPoly b := by
  ext j
  rw [coeff_add, coeff_natPoly, coeff_natPoly, coeff_natPoly, Nat.testBit_xor]
  cases a.testBit j <;> cases b.testBit j <;> simp [CharTwo.add_self_eq_zero]

theorem natPoly_shiftLeft (a k : Nat) : natPoly (a <<< k) = natPoly a * X ^ k := by
  ext j
  rw [coeff_mul_X_pow', coeff_natPoly, Nat.testBit_shiftLeft]
  by_cases h : k ≤ j <;> simp [h, coeff_natPoly]

theorem natPoly_injective : Function.Injective natPoly := by
  intro a b h
  apply Nat.eq_of_testBit_eq
  intro i
  have := congrArg (coeff · i) h
  simp only [coeff_natPoly] at this
  cases ha : a.testBit i <;> cases hb : b.testBit i <;> simp_all

@[simp] theorem natPoly_zero : natPoly 0 = 0 := by simp [natPoly, bitLength_zero]

theorem natPoly_ne_zero {v : Nat} (h : v ≠ 0) : natPoly v ≠ 0 := fun e => h (natPoly_injective (by simpa using e))

theorem natDegree_natPoly {v : Nat} (h : v ≠ 0) : (natPoly v).natDegree = bitLength v - 1 := by
  apply natDegree_eq_of_le_of_coeff_ne_zero
  · rw [natDegree_le_iff_coeff_eq_zero]
    intro j hj
    rw [coeff_natPoly, testBit_of_bitLength_le (by omega)]; simp
  · rw [coeff_natPoly, testBit_bitLength_pred h]; simp

theorem degree_natPoly_lt {r p : Nat} (hp : p ≠ 0) (h : bitLength r < bitLength p) :
    (natPoly r).degree < (natPoly p).degree := by
  by_cases hr : r = 0
  · subst hr; simp [bot_lt_iff_ne_bot, natPoly_ne_zero hp]
  · rw [degree_eq_natDegree (natPoly_ne_zero hr), degree_eq_natDegree (natPoly_ne_zero hp), natDegree_natPoly hr, natDegree_natPoly hp]
    have := bitLength_pos hr
    exact_mod_cast (by omega)

theorem natPoly_toInteger (s : Seq) (len : Nat) : natPoly (toInteger s len) = seqPoly s len := by
  ext j
  rw [coeff_natPoly, testBit_toInteger, seqPoly, finsetSum_coeff]
  have e : ∀ i, (if lane s i = true then (X : (ZMod 2)[X]) ^ (len - 1 - i) else 0).coeff j
      = if len - 1 - i = j then (if lane s i then 1 else 0) else 0 := by
    intro i
    by_cases h : len - 1 - i = j
    · subst h; cases lane s i <;> simp
    · cases lane s i <;> simp [coeff_X_pow, h, Ne.symm h]
  simp only [e]
  by_cases h : j < len
  · rw [Finset.sum_eq_single (len - 1 - j)]
    · simp [h, show len - 1 - (len - 1 - j) = j by omega]
    · intro i hi hne
      have := Finset.mem_range.1 hi
      rw [if_neg (by omega)]
    · intro hn; exact absurd (Finset.mem_range.2 (by omega)) hn
  · rw [Finset.sum_eq_zero]
    · simp [h]
    · intro i hi
      have := Finset.mem_range.1 hi
      rw [if_neg (by omega)]

theorem natPoly_divStep (r p : Nat) :
    natPoly (divStep r p) = natPoly r + natPoly p * X ^ (bitLength r - bitLength p) := by
  rw [divStep, natPoly_xor, natPoly_shiftLeft]

/-- R147: an iteration leaves the residue modulo the divisor as it is, so the loop computes it. -/
theorem natPoly_divLoop {p : Nat} (hp : p ≠ 0) (r : Nat) :
    natPoly (divLoop (bitLength r) r p) = natPoly r % natPoly p := by
  induction r using division_induction (p := p) with
  | done r h =>
    rw [divLoop_done h]
    have hlt := bitLength_divLoop_lt hp r
    rw [divLoop_done h] at hlt
    rw [(mod_eq_self_iff (natPoly_ne_zero hp)).2 (degree_natPoly_lt hp hlt)]
  | turn r h ih =>
    rw [divLoop_step h, ih, natPoly_divStep, add_mod, EuclideanDomain.mod_eq_zero.2 (Dvd.intro _ rfl), add_zero]

end Sys2Proof.Machine
end

