-- ==== Sys2Proof/Laws/Run.lean ====
section
/-!
SUPPORT. Runs of several steps, in terms of `step` and `State`, so that no proof unfolds the host's interface.
-/

namespace Sys2Proof.Machine

/-- `n` steps of the machine. -/
def runSteps (n : Nat) (s : State) : Host.Outcome State Fault Refusal := Host.Core.run core n s

theorem run_eq_runSteps (n : Nat) (s : State) : Host.Core.run core n s = runSteps n s := rfl

theorem runSteps_zero (s : State) : runSteps 0 s = .next s := rfl

theorem runSteps_succ_of_next {s t : State} (h : step s = .next t) (n : Nat) : runSteps (n + 1) s = runSteps n t := by
  have hc : core.step s = .next t := h
  simp only [runSteps, Host.Core.run, hc]
  rfl

theorem runSteps_one {s t : State} (h : step s = .next t) : runSteps 1 s = .next t := by
  rw [runSteps_succ_of_next h, runSteps_zero]

/-- A run of at least one step that answers a next state made its first step. -/
theorem runSteps_succ_inv {n : Nat} {s t : State} (h : runSteps (n + 1) s = .next t) :
    ∃ u, step s = .next u ∧ runSteps n u = .next t := by
  simp only [runSteps, Host.Core.run] at h
  split at h
  · next u hu => exact ⟨u, hu, h⟩
  · cases h
  · cases h

theorem runSteps_add {n : Nat} : ∀ {s t : State}, runSteps n s = .next t → ∀ m, runSteps (n + m) s = runSteps m t := by
  induction n with
  | zero =>
    intro s t h m
    rw [runSteps_zero] at h
    cases h
    rw [Nat.zero_add]
  | succ n ih =>
    intro s t h m
    obtain ⟨u, hu, hr⟩ := runSteps_succ_inv h
    rw [Nat.succ_add, runSteps_succ_of_next hu, ih hr]

/-- A property that every step keeps holds at the end of every run. -/
theorem runSteps_keeps {P : State → Prop} (keeps : ∀ s t, P s → step s = .next t → P t) :
    ∀ {n : Nat} {s t : State}, P s → runSteps n s = .next t → P t
  | 0, s, t, hs, h => by
    rw [runSteps_zero] at h
    cases h
    exact hs
  | n + 1, s, t, hs, h => by
    obtain ⟨u, hu, hr⟩ := runSteps_succ_inv h
    exact runSteps_keeps keeps (keeps s u hs hu) hr

/-- The word of CRC (R75). -/
theorem decode_crc (o : Nat) : decode 0x00000004 o = .ok .crc := rfl

/-- R133, R220: a CRC that is presented and whose checks pass is accepted. -/
theorem step_accepts_crc {s : State} {o : Nat} {rest : List HostMove} (hb : s.busy = false)
    (hh : s.host = .command 0x00000004 o :: rest) (hf : s.fault = false) (hk : s.keyValid = true)
    (hd : s.dvdValid = true) : step s = .next (s.withHost rest).acceptCrc := by
  have e : step s = exec .crc (s.withHost rest) := by
    rw [step, hh]
    simp only [moveCommand, hb, Bool.false_eq_true, if_false, runCommand, decode_crc]
  rw [e, exec, execCrc, unlessFaulted_clear (by simpa using hf)]
  simp [hk, hd]

end Sys2Proof.Machine
end

