-- ==== Sys2Proof/Tests/Slice0.lean ====
section
/-!
SUPPORT. Tests: each expected value is one that the spec writes out (the vector's name stands beside it), and a witness for
the hypotheses of every statement that has some.
-/

namespace Sys2Proof.Machine

/-- The host has this one move left. -/
def State.withMove (s : State) (m : HostMove) : State := { s with host := [m] }

end Sys2Proof.Machine

namespace Sys2Proof.Tests

open Sys2Proof.Machine Sys2Proof.Says

/-! ## Helpers -/

/-- The decoder gives this command. -/
def decodesTo (w : Word) (o : Nat) (i : Instr) : Bool :=
  match decode w o with
  | .ok j => j == i
  | .error _ => false

/-- The decoder rejects the word for this reason. -/
def rejects (w : Word) (r : DecodeReject) : Bool :=
  match decode w 0 with
  | .ok _ => false
  | .error e => e == r

/-- The outcome is a next state that meets a check. -/
def nextMeets (o : Host.Outcome State Fault Refusal) (p : State → Bool) : Bool :=
  match o with
  | .next t => p t
  | .fault _ => false
  | .refused _ => false

/-- The outcome is this fault. -/
def faultsWith (o : Host.Outcome State Fault Refusal) (f : Fault) : Bool :=
  match o with
  | .next _ => false
  | .fault g => g == f
  | .refused _ => false

/-- The last response is this one. -/
def lastIs (c : Code) (p : Payload) (t : State) : Bool := t.responses.getLast? == some ⟨c, p⟩

/-- The line stands for this move. -/
def assemblesTo (line : String) (m : HostMove) : Bool :=
  match assembleText Config.reference line with
  | .ok (some n) => n == m
  | .ok none => false
  | .error _ => false

/-- The line is this assembly error. -/
def asmFails (line : String) (e : AsmError) : Bool :=
  match assembleText Config.reference line with
  | .ok _ => false
  | .error f => f == e

/-- The lanes of a sequence register, given by the operand that carries them. -/
def lanesOf (opnd len : Nat) : Seq := lanesOfOperand Config.reference opnd len

/-- After `LDKEY 6, "110101"` and `LDDVD 15, "101000110100000"` (V-D1), written element by element from R131 and R132. -/
def loaded : State :=
  { State.reset with
    keySeq := lanesOf 0x2B 6, keyLen := 6, keyValid := true, dvdSeq := lanesOf 0x2C5 15, dvdLen := 15, dvdValid := true }

/-- V-D1 after the CRC has been accepted, in the turn before ITERATE 1. -/
def running : State := { loaded with busy := true, wr := 0x51A0, wp := 0x35, wk := 6 }

/-- V-D1 after ITERATE 6, in the turn of FINISH. -/
def ending : State := { running with wr := 0xE }

/-- V-E1: a state after an illegal word. -/
def faulted : State := { State.reset with fault := true, errCause := 1 }

/-! ## Syntax and well-formedness -/

theorem test_wf_nop_crc_rdrem_rdstat :
    [Instr.nop, .crc, .rdrem, .rdstat].all (Instr.wellFormed Config.reference) = true := by decide
theorem test_wf_largest_operand : Instr.wellFormed Config.reference (.ldkey 6 0xFFFFFFFF) = true := by decide
theorem test_ill_formed_ldkey : Instr.wellFormed Config.reference (.ldkey 6 0x100000000) = false := by decide
theorem test_ill_formed_lddvd : Instr.wellFormed Config.reference (.lddvd 6 0x100000000) = false := by decide
theorem test_ill_formed_s2i : Instr.wellFormed Config.reference (.s2i 6 0x100000000) = false := by decide
theorem test_ill_formed_i2s : Instr.wellFormed Config.reference (.i2s 6 0x100000000) = false := by decide
theorem test_ill_formed_digits : Instr.wellFormed Config.reference (.digits 6 1 4 0x100000000) = false := by decide
/-- R7: no instance has a MAX_LEN of 1 or of 256. -/
theorem test_no_config_outside_its_bounds : ∀ cfg : Config, cfg.maxLen ≠ 1 ∧ cfg.maxLen ≠ 256 := fun cfg =>
  ⟨fun h => absurd cfg.two_le_maxLen (by rw [h]; decide), fun h => absurd cfg.maxLen_le_255 (by rw [h]; decide)⟩

/-! ## Decoding: the words of R75 and R79, bit by bit (C, B, A, OP) -/

theorem test_decode_nop : decodesTo 0b00000000000000000000000000000001 0 .nop = true := by decide
theorem test_decode_ldkey : decodesTo 0b00000000000000000000011000000010 0x2B (.ldkey 6 0x2B) = true := by decide
theorem test_decode_lddvd : decodesTo 0b00000000000000000000111100000011 0x2C5 (.lddvd 15 0x2C5) = true := by decide
theorem test_decode_crc : decodesTo 0b00000000000000000000000000000100 0 .crc = true := by decide
theorem test_decode_rdrem : decodesTo 0b00000000000000000000000000000101 0 .rdrem = true := by decide
theorem test_decode_rdstat : decodesTo 0b00000000000000000000000000000110 0 .rdstat = true := by decide
theorem test_decode_s2i : decodesTo 0b00000000000000000000011000000111 0x2B (.s2i 6 0x2B) = true := by decide
theorem test_decode_i2s : decodesTo 0b00000000000000000000010100001000 0xE (.i2s 5 0xE) = true := by decide
theorem test_decode_digits :
    decodesTo 0b00000100000000010000011000001001 0x2B (.digits 6 1 4 0x2B) = true := by decide
/-- V-E1, V-E2, and the last illegal opcode. -/
theorem test_reject_opcodes :
    rejects 0x00000000 (.illegalOpcode 0x00) = true ∧ rejects 0x0000000A (.illegalOpcode 0x0A) = true ∧
    rejects 0x000000FF (.illegalOpcode 0xFF) = true := by decide
/-- V-E3, V-E4, V-E5, V-E25, and field C of an opcode that uses A only. -/
theorem test_reject_unused_fields :
    rejects 0x00000104 (.unusedFieldNotZero 0x04) = true ∧ rejects 0x01000001 (.unusedFieldNotZero 0x01) = true ∧
    rejects 0x00000106 (.unusedFieldNotZero 0x06) = true ∧ rejects 0x00010102 (.unusedFieldNotZero 0x02) = true ∧
    rejects 0x01000508 (.unusedFieldNotZero 0x08) = true := by decide
/-- R79's words. -/
theorem test_encode_words :
    encode (.ldkey 6 0x2B) = (0x00000602, 0x2B) ∧ encode (.lddvd 15 0x2C5) = (0x00000F03, 0x2C5) ∧
    encode .crc = (0x00000004, 0) ∧ encode (.i2s 5 0xE) = (0x00000508, 0xE) ∧
    encode (.digits 6 1 4 0x2B) = (0x04010609, 0x2B) := by decide
/-- The operand of an instruction given as one number stands from bit 32 on. -/
theorem test_decode_table_word :
    decodeTableWord 32 0x00000602 = some (.ldkey 6 0) ∧ decodeTableWord 64 0x0000002B00000602 = some (.ldkey 6 0x2B) ∧
    decodeTableWord 32 0x0000000A = none := by decide

/-! ## The commands -/

/-- V-L5. -/
theorem test_nop : nextMeets (step (State.reset.withMove (.command 1 0x1234))) (lastIs .ok .none) = true := by decide
/-- V-F1. -/
theorem test_nop_faulted :
    nextMeets (step (faulted.withMove (.command 1 0))) (fun t => lastIs .faulted .none t && t.errCause == 1) = true := by decide
/-- V-L1: KEY lanes 1,1,0,1,0,1; the operand's bits 6 to 31 are ignored. -/
theorem test_ldkey_ignores_high_bits :
    nextMeets (step (State.reset.withMove (.command 0x602 0xFFFFFFEB))) (fun t =>
      t.keySeq == [true, true, false, true, false, true] ++ List.replicate 26 false && statusWord t == 0x00060002) = true := by
  decide
/-- V-E11. -/
theorem test_ldkey_zero_lanes :
    nextMeets (step (State.reset.withMove (.command 0x602 0xFFFFFFC0))) (fun t =>
      lastIs .eKeyzero .none t && statusWord t == 0x00000301) = true := by decide
/-- V-L2, the second command. -/
theorem test_lddvd_empty :
    nextMeets (step (State.reset.withMove (.command 0x3 0xFFFFFFFF))) (fun t =>
      t.dvdValid && t.dvdSeq == List.replicate 32 false && statusWord t == 0x00000004) = true := by decide
/-- V-E12. -/
theorem test_lddvd_too_long :
    nextMeets (step (State.reset.withMove (.command 0x2103 0))) (fun t =>
      lastIs .eLen .none t && statusWord t == 0x00000401) = true := by decide
/-- The row "CRC accepted" of the step-level view. -/
theorem test_crc_accepted :
    nextMeets (step (loaded.withMove (.command 4 0))) (fun t =>
      t.busy && t.wr == 0x51A0 && t.wp == 0x35 && t.wk == 6 && t.responses.isEmpty) = true := by decide
/-- V-E18. -/
theorem test_crc_without_key :
    nextMeets (step ({ loaded with keyValid := false }.withMove (.command 4 0))) (lastIs .eNokey .none) = true := by decide
/-- P5 line 5. -/
theorem test_rdrem :
    nextMeets (step ({ loaded with rem := 0x19, remValid := true }.withMove (.command 5 0))) (lastIs .ok (.int 0x19)) = true := by
  decide
/-- V-E19. -/
theorem test_rdrem_after_reset :
    nextMeets (step (State.reset.withMove (.command 5 0))) (fun t =>
      lastIs .eNorem .none t && statusWord t == 0x00000701) = true := by decide
/-- P1 line 7. -/
theorem test_rdstat :
    nextMeets (step ({ loaded with remValid := true }.withMove (.command 6 0)))
      (lastIs .ok (.status 0x0F06000E)) = true := by decide
/-- V-F2. -/
theorem test_rdstat_in_the_fault_state :
    nextMeets (step (faulted.withMove (.command 6 0))) (lastIs .ok (.status 0x00000101)) = true := by decide
/-- P2 line 1. -/
theorem test_s2i :
    nextMeets (step (State.reset.withMove (.command 0x607 0x2B))) (lastIs .ok (.int 0x35)) = true := by decide
/-- V-E13. -/
theorem test_s2i_too_long :
    nextMeets (step (State.reset.withMove (.command 0x2107 0))) (lastIs .eLen .none) = true := by decide
/-- P1 line 4. -/
theorem test_i2s :
    nextMeets (step (State.reset.withMove (.command 0x508 0xE)))
      (lastIs .ok (.seq ([false, true, true, true, false] ++ List.replicate 27 false) 5)) = true := by decide
/-- V-E20. -/
theorem test_i2s_out_of_range :
    nextMeets (step (State.reset.withMove (.command 0x508 0x20))) (lastIs .eRange .none) = true := by decide
/-- P2 line 3. -/
theorem test_digits :
    nextMeets (step (State.reset.withMove (.command 0x04010609 0x2B))) (lastIs .ok (.chars [0x31, 0x30, 0x31])) = true := by
  decide
/-- V-E24. -/
theorem test_digits_length_before_range :
    nextMeets (step (State.reset.withMove (.command 0x03042109 0))) (lastIs .eLen .none) = true := by decide
/-- V-F5: the first cause is kept. -/
theorem test_first_cause_is_kept :
    nextMeets (step ({ faulted with errCause := 5 }.withMove (.command 0xA 0))) (fun t =>
      lastIs .faulted .none t && t.errCause == 5) = true := by decide

/-! ## The engine, the host's other moves, reset -/

/-- ITERATE 1 of the step-level view. -/
theorem test_iterate : nextMeets (step running) (fun t => t.wr == 0x3BA0 && t.busy && t.responses.isEmpty) = true := by
  decide
/-- FINISH of the step-level view. -/
theorem test_finish :
    nextMeets (step ending) (fun t =>
      !t.busy && t.wr == 0xE && t.rem == 0xE && t.remValid && lastIs .ok (.int 0xE) t) = true := by decide
/-- V-R2: a command presented meanwhile is held. -/
theorem test_command_is_held :
    nextMeets (step (running.withMove (.command 6 0))) (fun t => t.host == [.command 6 0] && t.wr == 0x3BA0) = true := by decide
/-- R214, R210: a reset made while a command is held clears BUSY, and the command is taken next; a wait made while it is held is
used up by the engine. -/
theorem test_reset_lifts_the_hold :
    nextMeets (step { running with host := [.command 6 0, .reset] }) (fun t =>
      t == { State.reset with host := [.command 6 0], abandoned := 1 }) = true ∧
    nextMeets (step { running with host := [.command 6 0, .wait, .reset] }) (fun t =>
      t.host == [.command 6 0, .reset] && t.wr == 0x3BA0 && t.busy) = true := by decide
/-- V-D1: the remainder 0xE in 6 iterations. -/
theorem test_division :
    computeRemainder (lanesOf 0x2B 6) 6 (lanesOf 0x2C5 15) 15 = 0xE ∧
    iterateCount (lanesOf 0x2B 6) 6 (lanesOf 0x2C5 15) 15 = 6 := by decide
/-- V-R1: a reset ends the CRC in flight without a response. -/
theorem test_reset_while_running :
    nextMeets (step (running.withMove .reset)) (fun t => t == { State.reset with abandoned := 1 }) = true := by decide
/-- V-R1: the CRC never responds, so item 3 of R221 fails after the reset; with no CRC in flight the run has ended. -/
theorem test_run_does_not_end_after_an_abandoned_crc :
    nextMeets (step (running.withMove .reset)) (fun t => t.host.isEmpty && !t.busy && !t.runEnded) = true ∧
    nextMeets (step (loaded.withMove .reset)) (·.runEnded) = true := by decide
/-- V-R3. -/
theorem test_status_after_reset : statusWord State.reset = 0x00000000 := by decide
/-- R211, U12. -/
theorem test_wait_without_a_crc : faultsWith (step (State.reset.withMove .wait)) .waitStuck = true := by decide
/-- The next step runs the instruction that `withFetchWord` presents. -/
theorem test_with_fetch_word :
    nextMeets (step (running.withFetchWord 64 0x0000002B00000607)) (lastIs .ok (.int 0x35)) = true := by decide

/-! ## The assembler's notation (R79, R84) -/

theorem test_assemble_ldkey : assemblesTo "LDKEY 6, \"110101\"" (.command 0x602 0x2B) = true := by decide
theorem test_assemble_i2s :
    assemblesTo "I2S 5, 0xE" (.command 0x508 0xE) = true ∧ assemblesTo "I2S 5, 0b01110" (.command 0x508 0xE) = true := by
  decide
theorem test_assemble_digits : assemblesTo "DIGITS 6, 1, 4, \"110101\" ; R79" (.command 0x04010609 0x2B) = true := by decide
theorem test_assemble_reset : assemblesTo "RESET" .reset = true := by decide
theorem test_assemble_length_error : asmFails "LDKEY 5, \"110101\"" .stringLengthNotL = true := by decide

/-! ## Witnesses for the statements' hypotheses -/

theorem test_witness_ResetSetsEveryElement :
    (running.withMove .reset).host = .reset :: [] ∧ (faulted.withMove .reset).host = .reset :: [] ∧
    { running with host := [.command 6 0, .reset] }.host = .command 6 0 :: .reset :: [] ∧ running.busy = true ∧
    (faulted.withMove .reset).resetMove = some [] ∧ faulted.fault = true ∧ nextMeets (step (faulted.withMove .reset)) (!·.fault) = true := by decide

theorem test_inv_loaded : (loaded.withMove (.command 4 0)).Inv := by decide
theorem test_inv_running : running.Inv := by decide
theorem test_inv_ending : ending.Inv := by decide
theorem test_inv_faulted : faulted.Inv := by decide

theorem test_witness_StepKeepsTheInvariants :
    (loaded.withMove (.command 4 0)).Inv ∧ nextMeets (step (loaded.withMove (.command 4 0))) (fun _ => true) = true ∧
    running.Inv ∧ nextMeets (step running) (fun _ => true) = true ∧
    faulted.Inv ∧ nextMeets (step faulted) (fun _ => true) = true :=
  ⟨test_inv_loaded, by decide, test_inv_running, by decide, test_inv_faulted, by decide⟩

/-- A word of every row, the operand coming back and not. -/
theorem test_witness_EncodeAndDecodeAgree :
    decode 0x00000602 0x2B = .ok (.ldkey 6 0x2B) ∧ decode 0x00000001 0x1234 = .ok .nop := ⟨rfl, rfl⟩

/-- Each case of the pseudocode, with its unused fields 0 and not 0. -/
theorem test_witness_DecodeFollowsItsPseudocode :
    ([0x01000001, 0x00000001, 0x00FF1002, 0x0000FF02, 0x01000003, 0x00000003, 0x00000104, 0x00000004, 0x00010005,
      0x00000005, 0x80000006, 0x00000006, 0x00800007, 0x00000007, 0x00010008, 0x0000FF08, 0xFFFFFF09, 0x00000000,
      0x0000000A, 0x000000FF] : List Word).map fieldOP =
      [1, 1, 2, 2, 3, 3, 4, 4, 5, 5, 6, 6, 7, 7, 8, 8, 9, 0, 0x0A, 0xFF] := by decide

/-- The last clause: an illegal word presented with and without FAULT. -/
theorem test_witness_illegal_presented :
    (∀ i, decode 0x104 0 ≠ .ok i) ∧ presents (loaded.withMove (.command 0x104 0)) 0x104 0 [] ∧
    presents (faulted.withMove (.command 0x104 0)) 0x104 0 [] := ⟨nofun, ⟨rfl, rfl⟩, ⟨rfl, rfl⟩⟩

theorem test_witness_FieldsAreTheWordsBytes : decode 0x04010609 0x2B = .ok (.digits 6 1 4 0x2B) := rfl

theorem test_witness_DecodeAcceptsTheOpcodeMapOnly :
    (⟨"LDKEY", 0x00000002, 0xFFFF00FF⟩ : OpcodeRow) ∈ opcodeTable ∧
    (0x00000602 : Word) &&& 0xFFFF00FF = 0x00000002 ∧ (0x00010602 : Word) &&& 0xFFFF00FF ≠ 0x00000002 ∧
    (0x00000100 : Word) &&& 0x000000FF = 0 ∧ 0x0A ≤ ((0x0000010A : Word) &&& 0x000000FF).toNat := by decide

theorem test_witness_StepRunsTheDecodedCommand :
    presents (loaded.withMove (.command 4 0)) 4 0 [] ∧ decode 4 0 = .ok .crc := ⟨⟨rfl, rfl⟩, rfl⟩

theorem test_witness_IllegalWordsRaise :
    presents (loaded.withMove (.command 0x104 0)) 0x104 0 [] ∧ loaded.fault = false ∧
    presents (faulted.withMove (.command 0x104 0)) 0x104 0 [] ∧ faulted.fault = true ∧
    (∀ row ∈ opcodeTable, (0x104 : Word) &&& row.mask ≠ row.pattern) ∧ decode 0x602 0 = .ok (.ldkey 6 0) :=
  ⟨⟨rfl, rfl⟩, rfl, ⟨rfl, rfl⟩, rfl, by decide, rfl⟩

theorem test_witness_FaultStateRefusesAllButRdstat :
    faulted.fault = true ∧ presents (faulted.withMove (.command 6 0)) 6 0 [] ∧
    presents (faulted.withMove (.command 0x106 0)) 0x106 0 [] ∧ (0x106 : Word) ≠ 0x00000006 :=
  ⟨rfl, ⟨rfl, rfl⟩, ⟨rfl, rfl⟩, by decide⟩

theorem test_witness_FaultEntryLatchesOnlyTheCause :
    (loaded.withMove (.command 0 0)).fault = false ∧
    nextMeets (step (loaded.withMove (.command 0 0))) (fun t => t.fault && t.responses == [⟨.eIllegal, .none⟩]) = true := by
  decide

theorem test_witness_OnlyResetLeavesTheFaultState :
    faulted.fault = true ∧ faulted.busy = false ∧ nextMeets (step (faulted.withMove (.command 4 0))) (fun _ => true) = true ∧
    (faulted.withMove (.command 4 0)).resetMove = none ∧ (faulted.withMove .reset).resetMove = some [] :=
  ⟨rfl, rfl, rfl, rfl, rfl⟩

theorem test_witness_AnswersCarryTheListedCodes :
    Code.eRange ∈ errorCodes (.i2s 5 0) ∧
    nextMeets (exec .crc loaded) (fun _ => true) = true ∧ nextMeets (exec (.i2s 5 0x20) loaded) (fun _ => true) = true ∧
    presents (loaded.withMove (.command 0 0)) 0 0 [] ∧ (∀ row ∈ opcodeTable, (0 : Word) &&& row.mask ≠ row.pattern) ∧
    nextMeets (step (loaded.withMove (.command 0 0))) (fun _ => true) = true ∧
    nextMeets (engineStep running) (fun _ => true) = true ∧ nextMeets (engineStep ending) (fun _ => true) = true :=
  ⟨by decide, by decide, by decide, ⟨rfl, rfl⟩, by decide, by decide, by decide, by decide⟩

/-- At the bounds of each clause: lengths 1, 33, 2 and 32; widths 33 and 32; a range's ends. -/
theorem test_witness_ChecksComeInTheirOrder :
    presents (faulted.withMove (.command 0 0)) 0 0 [] ∧ presents (loaded.withMove (.command 0 0)) 0 0 [] ∧
    (∀ i, decode 0 0 ≠ .ok i) ∧ (0 : Word) ≠ 0x00000006 ∧ faulted.fault = true ∧ State.reset.fault = false ∧
    ((1 : Byte).toNat < 2 ∧ State.reset.cfg.maxLen < (33 : Byte).toNat) ∧
    (∀ i < (2 : Byte).toNat, Nat.testBit 0xFFFFFFFC i = false) ∧ (∀ i < (32 : Byte).toNat, Nat.testBit 0 i = false) ∧
    State.reset.keyValid = false ∧ { loaded with dvdValid := false }.keyValid = true ∧
    (2 ^ (5 : Byte).toNat ≤ 0x20 % 2 ^ State.reset.cfg.maxLen) ∧ ((3 : Byte).toNat < (4 : Byte).toNat) ∧
    ((6 : Byte).toNat < (7 : Byte).toNat) :=
  ⟨⟨rfl, rfl⟩, ⟨rfl, rfl⟩, nofun, by decide, rfl, rfl, by decide, by decide, by decide, rfl, rfl, by decide, by decide,
    by decide⟩

/-- For every opcode with unused fields (0x01 to 0x08): a presented word that uses one of them, with and without FAULT. -/
theorem test_witness_encoded :
    ([0x01, 0x02, 0x03, 0x04, 0x05, 0x06, 0x07, 0x08] : List Word).all (fun op =>
      fieldOP (op ||| 0x01000000) == op.setWidth 8 && fieldC (op ||| 0x01000000) != 0 && fieldC op == 0 &&
      fieldB op == 0 && fieldA op == 0) = true ∧
    (∀ w, presents (loaded.withMove (.command w 0)) w 0 []) ∧ (∀ w, presents (faulted.withMove (.command w 0)) w 0 []) ∧
    loaded.fault = false ∧ faulted.fault = true :=
  ⟨by decide, fun _ => ⟨rfl, rfl⟩, fun _ => ⟨rfl, rfl⟩, rfl, rfl⟩

theorem test_witness_NopAnswersOk : loaded.fault = false ∧ faulted.fault = true := by decide

theorem test_witness_RdstatAnswersTheStatusWord : loaded.FaultInv ∧ loaded.fault = false := by decide

/-- Lengths MAX_LEN and MAX_LEN + 1, and 0. -/
theorem test_witness_S2iAnswersTheBigEndianValue :
    loaded.fault = false ∧ loaded.cfg.maxLen < (33 : Byte).toNat ∧ (32 : Byte).toNat ≤ loaded.cfg.maxLen ∧
    (0 : Byte).toNat ≤ loaded.cfg.maxLen := by decide

/-- Widths 33 and 32; the values 2^5 and 2^5 − 1 at width 5. -/
theorem test_witness_I2sAnswersTheExpansion :
    loaded.fault = false ∧ loaded.cfg.maxLen < (33 : Byte).toNat ∧ (32 : Byte).toNat ≤ loaded.cfg.maxLen ∧
    2 ^ (5 : Byte).toNat ≤ ∑ j ∈ Finset.range loaded.cfg.maxLen, (Nat.testBit 0x20 j).toNat * 2 ^ j ∧
    ∑ j ∈ Finset.range loaded.cfg.maxLen, (Nat.testBit 0x1F j).toNat * 2 ^ j < 2 ^ (5 : Byte).toNat := by decide

/-- Lengths 33 and 32; the ranges 4..3 and 0..33 outside, 0..32 and 32..32 inside. -/
theorem test_witness_DigitsAnswersTheCharacters :
    loaded.fault = false ∧ loaded.cfg.maxLen < (33 : Byte).toNat ∧ (32 : Byte).toNat ≤ loaded.cfg.maxLen ∧
    ¬((4 : Byte).toNat ≤ (3 : Byte).toNat ∧ (3 : Byte).toNat ≤ (32 : Byte).toNat) ∧
    ¬((0 : Byte).toNat ≤ (33 : Byte).toNat ∧ (33 : Byte).toNat ≤ (32 : Byte).toNat) ∧
    (0 : Byte).toNat ≤ (32 : Byte).toNat ∧ (32 : Byte).toNat ≤ (32 : Byte).toNat := by decide

/-- Lengths 1, 33, 2 and 32; all lanes 0, and only the last lane 1. -/
theorem test_witness_LdkeyLoadsTheDivisor :
    loaded.fault = false ∧ (1 : Byte).toNat < 2 ∧ loaded.cfg.maxLen < (33 : Byte).toNat ∧
    2 ≤ (2 : Byte).toNat ∧ (32 : Byte).toNat ≤ loaded.cfg.maxLen ∧
    (∀ i < (2 : Byte).toNat, Nat.testBit 0xFFFFFFFC i = false) ∧
    (∃ i < (2 : Byte).toNat, Nat.testBit 0x2 i = true) ∧ (∃ i < (32 : Byte).toNat, Nat.testBit 0x80000000 i = true) := by
  decide

theorem test_witness_LddvdLoadsTheDividend :
    loaded.fault = false ∧ loaded.cfg.maxLen < (33 : Byte).toNat ∧ (32 : Byte).toNat ≤ loaded.cfg.maxLen ∧
    (0 : Byte).toNat ≤ loaded.cfg.maxLen := by decide

theorem test_witness_CrcStartsTheDivision :
    nextMeets (engineStep running) (fun _ => true) = true ∧ nextMeets (engineStep ending) (fun _ => true) = true ∧
    State.reset.fault = false ∧ State.reset.keyValid = false ∧
    { loaded with dvdValid := false }.keyValid = true ∧ { loaded with dvdValid := false }.dvdValid = false ∧
    loaded.fault = false ∧ loaded.keyValid = true ∧ loaded.dvdValid = true := by decide

theorem test_witness_RdremAnswersTheLastRemainder :
    State.reset.fault = false ∧ State.reset.remValid = false ∧
    { loaded with remValid := true }.fault = false ∧ { loaded with remValid := true }.remValid = true := by decide

/-- The ways in which the engine gets its turn; a guard that holds with the two bit lengths equal. -/
theorem test_witness_IterateDoesOneTurn :
    engineTurn running running ∧ engineTurn (running.withMove .wait) running ∧
    engineTurn (running.withMove (.command 6 0)) (running.withMove (.command 6 0)) ∧
    engineTurn { running with host := [.command 6 0, .command 6 0] } { running with host := [.command 6 0, .command 6 0] } ∧
    engineTurn { running with host := [.command 6 0, .wait] } (running.withMove (.command 6 0)) ∧
    running.busy = true ∧ running.wr ≠ 0 ∧ running.wp ≠ 0 ∧ bitLength running.wp ≤ bitLength running.wr ∧
    bitLength { running with wr := 0x35 }.wp = bitLength { running with wr := 0x35 }.wr :=
  ⟨.inl ⟨rfl, rfl⟩, .inr (.inl ⟨[], rfl, rfl⟩), .inr (.inr (.inl ⟨6, 0, rfl, rfl⟩)),
    .inr (.inr (.inr (.inl ⟨6, 0, 6, 0, [], rfl, rfl⟩))), .inr (.inr (.inr (.inr ⟨6, 0, [], rfl, rfl⟩))), by decide, by decide, by decide,
    by decide, by decide⟩

/-- The loop ended by a short remainder and by the remainder 0. -/
theorem test_witness_FinishDeliversTheRemainder :
    engineTurn ending ending ∧ ending.busy = true ∧
    ¬(ending.wr ≠ 0 ∧ ending.wp ≠ 0 ∧ bitLength ending.wp ≤ bitLength ending.wr) ∧
    ¬({ ending with wr := 0 }.wr ≠ 0) :=
  ⟨.inl ⟨rfl, rfl⟩, rfl, by decide, by decide⟩

/-- A host with no further move; and one that waits, presents a command that is held, waits with it held, and has a reset after
that, which comes too late to break the run off (V-D1: 6 iterations). -/
theorem test_witness_EngineRunComputesTheRemainder :
    (loaded.withMove (.command 4 0)).Inv ∧ loaded.fault = false ∧ loaded.keyValid = true ∧ loaded.dvdValid = true ∧
    presents (loaded.withMove (.command 4 0)) 0x00000004 0 [] ∧
    iterateCount loaded.keySeq loaded.keyLen.toNat loaded.dvdSeq loaded.dvdLen.toNat = 6 ∧
    (∀ k ≤ 6, resetWhileBusy (movesAfterTurn^[k] []) = none) ∧
    (∀ k ≤ 6, resetWhileBusy (movesAfterTurn^[k] (.wait :: .command 6 0 :: (List.replicate 6 .wait ++ [.reset]))) = none) :=
  ⟨test_inv_loaded, rfl, rfl, rfl, ⟨rfl, rfl⟩, by decide, by decide, by decide⟩

/-- With nothing behind the held command, with a wait, with a further command, and with a reset. -/
theorem test_witness_HeldCommandWaitsForTheEngine :
    (running.withMove (.command 6 0)).busy = true ∧ (running.withMove (.command 6 0)).host = .command 6 0 :: [] ∧
    (running.withMove (.command 6 0)).Inv ∧
    (∀ k ≤ running.cfg.maxLen, resetWhileBusy (movesAfterTurn^[k] [.command 6 0, .wait, .command 1 0]) = none) ∧
    (∀ later, [HostMove.wait] ≠ .reset :: later) ∧
    { running with host := [.command 6 0, .reset] }.host = .command 6 0 :: .reset :: [] :=
  ⟨rfl, rfl, test_inv_running, by decide, nofun, rfl⟩

theorem test_witness_IterationsEndWithinTheBound :
    (0x51A0 ≠ 0 ∧ 0x35 ≠ 0 ∧ bitLength 0x35 ≤ bitLength 0x51A0) ∧
    (toInteger (lanesOf 0x2B 6) 6 ≠ 0 ∧ bitLength (toInteger (lanesOf 0x2B 6) 6) ≤ bitLength (toInteger (lanesOf 0x2C5 15) 15)) ∧
    bitLength (toInteger (lanesOf 0x0 3) 3) < bitLength (toInteger (lanesOf 0x2B 6) 6) := by decide

theorem test_witness_NothingOverflowsAndTheMaskIsIdentity :
    running.Inv ∧ running.busy = true ∧ running.iterateEnabled = true ∧
    ending.Inv ∧ ending.busy = true ∧ ending.finishEnabled = true :=
  ⟨test_inv_running, by decide, by decide, test_inv_ending, by decide, by decide⟩

/-- The bound of the second clause is met from the bit length on. -/
theorem test_witness_BitLengthIsTheHighestBitPlusOne : (1 : Nat) ≠ 0 ∧ bitLength 1 ≤ 1 := by decide

theorem test_witness_RemainderIsThePolynomialRemainder : toInteger [true, true] 2 ≠ 0 := by decide

/-- One key for each item: any, value 1, value 2^t, value 3, one longer than the dividend. -/
theorem test_witness_DivisionCornerCases :
    (2 ≤ 6 ∧ toInteger (lanesOf 0x2B 6) 6 ≠ 0) ∧ (∀ i < 3, lane [false, false, false] i = false) ∧
    toInteger [false, true] 2 = 1 ∧ toInteger [true, false] 2 = 2 ^ 1 ∧ toInteger [true, true] 2 = 3 ∧
    [true, false, true].length = 3 ∧ bitLength (toInteger [true] 1) < bitLength (toInteger [true, false] 2) ∧
    { ending with wr := 0 }.busy = true ∧ { ending with wr := 0 }.wr = 0 := by decide

theorem test_witness_DivisionIsLinear : [true, false].length = 2 ∧ [true, true].length = 2 := by decide

/-- V-D21: key "10", codeword "10110". -/
theorem test_witness_SingleFlipsPassOnlyMonomialKeys :
    toInteger [true, false] 2 ≠ 0 ∧ [true, false, true, true, false].length = 5 ∧ 4 < 5 ∧ 0 < 5 ∧
    computeRemainder [true, false] 2 [true, false, true, true, false] 5 = 0 := by decide

/-- A key with and a key without leading zeros. -/
theorem test_witness_FcsRoundTrip :
    2 ≤ 2 ∧ toInteger [true, true] 2 ≠ 0 ∧ toInteger [false, false, true, true] 4 ≠ 0 := by decide

theorem test_witness_AgreesWithTheStandardCrcRegister :
    2 ≤ 6 ∧ [true, true, false, true, false, true].length = 6 ∧ lane [true, true, false, true, false, true] 0 = true := by
  decide

theorem test_witness_ToIntegerIsTheBigEndianSum : ∀ i < 3, lane [false, false, false] i = false := by decide

theorem test_witness_CodecRoundTrip :
    [true, false].length = 2 ∧ 3 < 2 ^ 2 ∧ toInteger [true, false] 2 = toInteger [true, false] 2 ∧ ([] : Seq).length = 0 := by
  decide

theorem test_witness_DigitRenderingLaw : 5 < [true, true, false, true, false, true].length ∧ 0 ≤ 0 ∧ 0 ≤ 6 ∧
    6 ≤ [true, true, false, true, false, true].length := by decide

/-- Both clauses on the engine, and a command that reads nothing of KEY, DVD or the engine. -/
theorem test_witness_CommandsWriteOnlyTheirRegisters :
    writesKey .nop = false ∧ writesDvd .nop = false ∧ Instr.nop ≠ .crc ∧
    divGuard running.wr running.wp = true ∧ divGuard ending.wr ending.wp = false := by decide

theorem test_witness_CommandsReadOnlyTheirRegisters :
    readsAgree .rdrem loaded { loaded with keyLen := 0, dvdLen := 3, wr := 5 } ∧
    nextMeets (exec .rdrem loaded) (fun _ => true) = true ∧
    nextMeets (exec .rdrem { loaded with keyLen := 0, dvdLen := 3, wr := 5 }) (fun _ => true) = true :=
  ⟨⟨rfl, rfl, rfl, rfl⟩, rfl, rfl⟩

theorem test_witness_ReadsHaveNoEffectAndRepeat :
    readsOnly (.s2i 6 0x2B) = true ∧ nextMeets (exec (.s2i 6 0x2B) loaded) (fun t => t.fault == loaded.fault) = true := by
  decide

theorem test_witness_EveryCommandHasOneResponse :
    presents (loaded.withMove (.command 4 0)) 4 0 [] ∧ nextMeets (step (loaded.withMove (.command 4 0))) (·.busy) = true ∧
    presents (loaded.withMove (.command 6 0)) 6 0 [] ∧ nextMeets (step (loaded.withMove (.command 6 0))) (!·.busy) = true ∧
    running.busy = true ∧ nextMeets (step running) (·.busy) = true ∧ nextMeets (step ending) (!·.busy) = true ∧
    running.resetMove = none ∧ ending.resetMove = none ∧ (running.withMove .reset).resetMove = some [] ∧
    nextMeets (step (running.withMove .reset)) (fun _ => true) = true :=
  ⟨⟨rfl, rfl⟩, by decide, ⟨rfl, rfl⟩, by decide, rfl, by decide, by decide, rfl, rfl, rfl, by decide⟩

theorem test_witness_BusyFromAcceptanceToFinish :
    loaded.busy = false ∧ nextMeets (step (loaded.withMove (.command 4 0))) (·.busy) = true ∧
    running.busy = true ∧ nextMeets (step ending) (!·.busy) = true := by decide

theorem test_witness_ValidFlagsAreClearedByResetOnly :
    (loaded.withMove (.command 0x602 0x2B)).resetMove = none ∧
    loaded.keyValid = true ∧ loaded.dvdValid = true ∧ { loaded with remValid := true }.remValid = true ∧
    State.reset.keyValid = false ∧ nextMeets (step (State.reset.withMove (.command 0x602 0x2B))) (·.keyValid) = true ∧
    State.reset.dvdValid = false ∧ nextMeets (step (State.reset.withMove (.command 0x303 0x5))) (·.dvdValid) = true ∧
    ending.remValid = false ∧ nextMeets (step ending) (·.remValid) = true :=
  ⟨rfl, by decide, by decide, by decide, by decide, by decide, by decide, by decide, by decide, by decide⟩

theorem test_witness_UnwrittenRegistersAreNeverRead :
    State.reset.fault = false ∧ State.reset.keyValid = false ∧ State.reset.remValid = false ∧
    { loaded with dvdValid := false }.keyValid = true ∧ { loaded with dvdValid := false }.dvdValid = false := by decide

theorem test_witness_ResetAbandonsTheCrc :
    { running with host := [.reset, .wait] }.busy = true ∧
    { running with host := [.reset, .wait] }.resetMove = some [.wait] ∧
    { running with host := [.command 6 0, .reset] }.resetMove = some [.command 6 0] := by decide

/-- A step that takes a command, one that takes none, a reset, and no reset. -/
theorem test_witness_AcceptedCommandsAreCounted :
    presents (loaded.withMove (.command 4 0)) 4 0 [] ∧
    nextMeets (step (loaded.withMove (.command 4 0))) (fun _ => true) = true ∧
    (∀ w o rest, ¬presents running w o rest) ∧ nextMeets (step running) (fun _ => true) = true ∧
    (running.withMove .reset).resetMove = some [] ∧ nextMeets (step (running.withMove .reset)) (fun _ => true) = true ∧
    running.resetMove = none :=
  ⟨⟨rfl, rfl⟩, by decide, fun _ _ _ h => absurd h.1 (by decide), by decide, rfl, by decide, rfl⟩

theorem test_witness_RunsEndWhenEveryCommandIsAnswered :
    State.reset.runEnded = true ∧ HostMove.reset ∉ [HostMove.command 1 0] ∧
    nextMeets (Host.Core.run core 1 { State.reset with host := [.command 1 0] }) (·.runEnded) = true ∧
    running.busy = true ∧ (running.withMove .reset).resetMove = some [] ∧
    nextMeets (Host.Core.run core (0 + 1) (running.withMove .reset)) (!·.runEnded) = true := by decide

/-- P5 lines 4 and 6. -/
theorem test_witness_RemainderIsStaleAfterALoad :
    loaded.fault = false ∧ { loaded with remValid := true }.remValid = true ∧
    nextMeets (exec (.ldkey 2 0x3) { loaded with remValid := true }) (!·.fault) = true ∧
    nextMeets (exec (.lddvd 25 0x013B350F) { loaded with remValid := true }) (!·.fault) = true := by decide

theorem test_witness_IdleBlockHoldsItsState : State.reset.busy = false ∧ State.reset.host = [] := by decide

/-- A string of length L and one of another length; the largest integer of the reference instance. -/
theorem test_witness_LinesAssembleToTheirCommands :
    [true, true].length = (2 : Byte).toNat ∧ ([] : Seq).length = (0 : Byte).toNat ∧ [true].length ≠ 2 ∧
    0xFFFFFFFF < 2 ^ Config.reference.maxLen := by decide

end Sys2Proof.Tests
end

section
/-!
PROOFS. The commands that ask for a valid flag before they read a register: CRC and RDREM (10_state.md R35).
-/

namespace Sys2Proof.Machine

open Sys2Proof.Says

/-- R184: taking an error leaves what `raised` says. -/
theorem raiseError_eq_raised (c : Code) (s : State) : raiseError c s = .next (raised s c) := rfl

/-- R133: outside the fault state, CRC without a divisor is refused, with or without a dividend (R183). -/
theorem exec_crc_of_keyValid_false {s : State} (hf : s.fault = false) (hk : s.keyValid = false) :
    exec .crc s = .next (raised s .eNokey) := by
  rw [exec, execCrc, unlessFaulted_clear hf, if_pos hk, raiseError_eq_raised]

/-- R133: outside the fault state, CRC with a divisor and without a dividend is refused. -/
theorem exec_crc_of_dvdValid_false {s : State} (hf : s.fault = false) (hk : s.keyValid = true)
    (hd : s.dvdValid = false) : exec .crc s = .next (raised s .eNodvd) := by
  rw [exec, execCrc, unlessFaulted_clear hf, if_neg (by simp [hk]), if_pos hd, raiseError_eq_raised]

/-- R143: outside the fault state, RDREM without a remainder is refused. -/
theorem exec_rdrem_of_remValid_false {s : State} (hf : s.fault = false) (hr : s.remValid = false) :
    exec .rdrem s = .next (raised s .eNorem) := by
  rw [exec, execRdrem, unlessFaulted_clear hf, if_pos hr, raiseError_eq_raised]

/-- Settles O48: each of the three refusals is the command's own valid-flag check (R35). -/
theorem unwrittenRegistersAreNeverRead : Obligations.UnwrittenRegistersAreNeverRead := by
  intro s hf
  exact ⟨exec_crc_of_keyValid_false hf, exec_crc_of_dvdValid_false hf, exec_rdrem_of_remValid_false hf⟩

end Sys2Proof.Machine
end

section
/-!
PROOFS. The decoder and the opcode map (30_encoding.md R72, R75, R82): a word decodes to a command exactly when it is that
command's word, and everything said about fields, cases and rows follows from that.
-/

namespace Sys2Proof.Machine

open Sys2Proof.Says

/-! ## The two checks of unused fields -/

theorem decodeNoField_eq_ok_iff {w : Word} {i j : Instr} :
    decodeNoField w i = .ok j ↔ i = j ∧ fieldA w = 0 ∧ fieldB w = 0 ∧ fieldC w = 0 := by
  unfold decodeNoField
  split <;> simp_all

theorem decodeFieldA_eq_ok_iff {w : Word} {i j : Instr} :
    decodeFieldA w i = .ok j ↔ i = j ∧ fieldB w = 0 ∧ fieldC w = 0 := by
  unfold decodeFieldA
  split <;> simp_all

/-- R82's test `A | B | C ≠ 0` is the check of a command that uses no field. -/
theorem decodeNoField_by_or (w : Word) (i : Instr) :
    if fieldA w ||| fieldB w ||| fieldC w ≠ 0 then ∀ j, decodeNoField w i ≠ .ok j else decodeNoField w i = .ok i := by
  split
  · next h => exact fun j hj => h (by simp [decodeNoField_eq_ok_iff.1 hj])
  · next h =>
    obtain ⟨hab, hc⟩ := BitVec.or_eq_zero_iff.1 (not_not.1 h)
    obtain ⟨ha, hb⟩ := BitVec.or_eq_zero_iff.1 hab
    exact decodeNoField_eq_ok_iff.2 ⟨rfl, ha, hb, hc⟩

/-- R82's test `B | C ≠ 0` is the check of a command that uses A alone. -/
theorem decodeFieldA_by_or (w : Word) (i : Instr) :
    if fieldB w ||| fieldC w ≠ 0 then ∀ j, decodeFieldA w i ≠ .ok j else decodeFieldA w i = .ok i := by
  split
  · next h => exact fun j hj => h (by simp [decodeFieldA_eq_ok_iff.1 hj])
  · next h => exact decodeFieldA_eq_ok_iff.2 ⟨rfl, BitVec.or_eq_zero_iff.1 (not_not.1 h)⟩

/-! ## The decoder, by opcode -/

section ByOpcode

variable {w : Word} (o : Nat)

theorem decode_of_opNop (h : fieldOP w = 0x01) : decode w o = decodeNoField w .nop := by simp [decode, h]

theorem decode_of_opLdkey (h : fieldOP w = 0x02) : decode w o = decodeFieldA w (.ldkey (fieldA w) o) := by
  simp [decode, h]

theorem decode_of_opLddvd (h : fieldOP w = 0x03) : decode w o = decodeFieldA w (.lddvd (fieldA w) o) := by
  simp [decode, h]

theorem decode_of_opCrc (h : fieldOP w = 0x04) : decode w o = decodeNoField w .crc := by simp [decode, h]

theorem decode_of_opRdrem (h : fieldOP w = 0x05) : decode w o = decodeNoField w .rdrem := by simp [decode, h]

theorem decode_of_opRdstat (h : fieldOP w = 0x06) : decode w o = decodeNoField w .rdstat := by simp [decode, h]

theorem decode_of_opS2i (h : fieldOP w = 0x07) : decode w o = decodeFieldA w (.s2i (fieldA w) o) := by
  simp [decode, h]

theorem decode_of_opI2s (h : fieldOP w = 0x08) : decode w o = decodeFieldA w (.i2s (fieldA w) o) := by
  simp [decode, h]

theorem decode_of_opDigits (h : fieldOP w = 0x09) :
    decode w o = .ok (.digits (fieldA w) (fieldB w) (fieldC w) o) := by simp [decode, h]

/-- R75: the opcodes of the two illegal rows. -/
theorem decode_of_opIllegal (h : fieldOP w = 0x00 ∨ 0x0A ≤ (fieldOP w).toNat) :
    decode w o = .error (.illegalOpcode (fieldOP w)) := by
  have hne : ∀ n : Nat, 1 ≤ n → n ≤ 9 → fieldOP w ≠ BitVec.ofNat 8 n := by
    intro n h1 h9 e
    have hn : (fieldOP w).toNat = n := by rw [e, BitVec.toNat_ofNat]; omega
    rcases h with h0 | hA
    · have hz : (fieldOP w).toNat = 0 := by rw [h0]; rfl
      omega
    · omega
  simp [decode, hne 1, hne 2, hne 3, hne 4, hne 5, hne 6, hne 7, hne 8, hne 9]

end ByOpcode

/-! ## A word decodes to a command exactly when it is that command's word -/

/-- The command carries the operand `o`, where it reads one (R78). -/
def carriesOperand (o : Nat) : Instr → Prop
  | .nop => True
  | .ldkey _ opnd => opnd = o
  | .lddvd _ opnd => opnd = o
  | .crc => True
  | .rdrem => True
  | .rdstat => True
  | .s2i _ opnd => opnd = o
  | .i2s _ opnd => opnd = o
  | .digits _ _ _ opnd => opnd = o

/-- The fields of a word name a command exactly when the word is made of that command's bytes (R72, R75). -/
theorem fieldsMean_iff (w : Word) (i : Instr) : fieldsMean w i ↔ w = encodeWord i := by
  cases i <;> exact (eq_commandWord_iff w _ _ _ _).symm

theorem decode_encodeWord {o : Nat} {i : Instr} (ho : carriesOperand o i) : decode (encodeWord i) o = .ok i := by
  cases i with
  | nop => rfl
  | crc => rfl
  | rdrem => rfl
  | rdstat => rfl
  | ldkey len opnd => cases ho; simp [encodeWord, decode, decodeFieldA]
  | lddvd len opnd => cases ho; simp [encodeWord, decode, decodeFieldA]
  | s2i len opnd => cases ho; simp [encodeWord, decode, decodeFieldA]
  | i2s width opnd => cases ho; simp [encodeWord, decode, decodeFieldA]
  | digits len start stop opnd => cases ho; simp [encodeWord, decode]

/-- What the decoder gives is in the word's fields, and the operand handed on is the one presented. -/
theorem fieldsMean_of_decode {w : Word} {o : Nat} {i : Instr} (h : decode w o = .ok i) :
    fieldsMean w i ∧ carriesOperand o i := by
  unfold decode at h
  split_ifs at h with h1 h2 h3 h4 h5 h6 h7 h8 h9
  · obtain ⟨rfl, hf⟩ := decodeNoField_eq_ok_iff.1 h
    exact ⟨⟨h1, hf⟩, trivial⟩
  · obtain ⟨rfl, hbc⟩ := decodeFieldA_eq_ok_iff.1 h
    exact ⟨⟨h2, rfl, hbc⟩, rfl⟩
  · obtain ⟨rfl, hbc⟩ := decodeFieldA_eq_ok_iff.1 h
    exact ⟨⟨h3, rfl, hbc⟩, rfl⟩
  · obtain ⟨rfl, hf⟩ := decodeNoField_eq_ok_iff.1 h
    exact ⟨⟨h4, hf⟩, trivial⟩
  · obtain ⟨rfl, hf⟩ := decodeNoField_eq_ok_iff.1 h
    exact ⟨⟨h5, hf⟩, trivial⟩
  · obtain ⟨rfl, hf⟩ := decodeNoField_eq_ok_iff.1 h
    exact ⟨⟨h6, hf⟩, trivial⟩
  · obtain ⟨rfl, hbc⟩ := decodeFieldA_eq_ok_iff.1 h
    exact ⟨⟨h7, rfl, hbc⟩, rfl⟩
  · obtain ⟨rfl, hbc⟩ := decodeFieldA_eq_ok_iff.1 h
    exact ⟨⟨h8, rfl, hbc⟩, rfl⟩
  · cases h
    exact ⟨⟨h9, rfl, rfl, rfl⟩, rfl⟩

theorem decode_eq_ok_iff {w : Word} {o : Nat} {i : Instr} :
    decode w o = .ok i ↔ w = encodeWord i ∧ carriesOperand o i := by
  constructor
  · intro h
    rw [← fieldsMean_iff]
    exact fieldsMean_of_decode h
  · rintro ⟨rfl, ho⟩
    exact decode_encodeWord ho

/-- Settles O5: the fields are numbers of the word's bytes, and a word that decodes is its command's word. -/
theorem fieldsAreTheWordsBytes : Obligations.FieldsAreTheWordsBytes :=
  ⟨fun w => ⟨fieldOP_toNat w, fieldA_toNat w, fieldB_toNat w, fieldC_toNat w⟩,
    fun w => ((eq_commandWord_iff w _ _ _ _).2 ⟨rfl, rfl, rfl, rfl⟩).symm,
    commandWord_toNat,
    fun _ _ _ h => (fieldsMean_of_decode h).1⟩

/-! ## Words that are no command -/

/-- R220: with no CRC in flight, a presented word is taken and run. -/
theorem step_of_presents {s : State} {w : Word} {o : Nat} {rest : List HostMove} (h : presents s w o rest) :
    step s = runCommand w o { s with host := rest } := by
  obtain ⟨hb, hh⟩ := h
  simp [step, hh, moveCommand, hb, State.withHost]

/-- R82, R182: ILLEGAL raises E_ILLEGAL after the fault check. -/
theorem runCommand_illegal {w : Word} {o : Nat} (h : ∀ i, decode w o ≠ .ok i) (s : State) :
    runCommand w o s = .next (if s.fault then answered s .faulted .none else raised s .eIllegal) := by
  unfold runCommand
  cases hd : decode w o with
  | ok i => exact absurd hd (h i)
  | error e =>
    cases hf : s.fault with
    | true => exact unlessFaulted_faulted hf _
    | false => exact unlessFaulted_clear hf _

/-- Settles O6: one clause per opcode, the test of the unused fields being the decoder's own check. -/
theorem decodeFollowsItsPseudocode : Obligations.DecodeFollowsItsPseudocode := by
  intro w o A B C illegal
  refine ⟨fun h => ?_, fun h => ?_, fun h => ?_, fun h => ?_, fun h => ?_, fun h => ?_, fun h => ?_, fun h => ?_,
    decode_of_opDigits o, fun h i => ?_, fun h s rest hp => ?_⟩
  · simpa only [illegal, decode_of_opNop o h] using decodeNoField_by_or w .nop
  · simpa only [illegal, decode_of_opLdkey o h] using decodeFieldA_by_or w (.ldkey A o)
  · simpa only [illegal, decode_of_opLddvd o h] using decodeFieldA_by_or w (.lddvd A o)
  · simpa only [illegal, decode_of_opCrc o h] using decodeNoField_by_or w .crc
  · simpa only [illegal, decode_of_opRdrem o h] using decodeNoField_by_or w .rdrem
  · simpa only [illegal, decode_of_opRdstat o h] using decodeNoField_by_or w .rdstat
  · simpa only [illegal, decode_of_opS2i o h] using decodeFieldA_by_or w (.s2i A o)
  · simpa only [illegal, decode_of_opI2s o h] using decodeFieldA_by_or w (.i2s A o)
  · simp [decode_of_opIllegal o h]
  · rw [step_of_presents hp]
    exact runCommand_illegal h _

/-! ## The opcode map -/

/-- A command's row of the map. -/
def rowOf : Instr → OpcodeRow
  | .nop => ⟨"NOP", 0x00000001, 0xFFFFFFFF⟩
  | .ldkey _ _ => ⟨"LDKEY", 0x00000002, 0xFFFF00FF⟩
  | .lddvd _ _ => ⟨"LDDVD", 0x00000003, 0xFFFF00FF⟩
  | .crc => ⟨"CRC", 0x00000004, 0xFFFFFFFF⟩
  | .rdrem => ⟨"RDREM", 0x00000005, 0xFFFFFFFF⟩
  | .rdstat => ⟨"RDSTAT", 0x00000006, 0xFFFFFFFF⟩
  | .s2i _ _ => ⟨"S2I", 0x00000007, 0xFFFF00FF⟩
  | .i2s _ _ => ⟨"I2S", 0x00000008, 0xFFFF00FF⟩
  | .digits _ _ _ _ => ⟨"DIGITS", 0x00000009, 0x000000FF⟩

theorem rowOf_mnemonic (i : Instr) : (rowOf i).mnemonic = mnemonic i := by cases i <;> rfl

theorem rowOf_mem (i : Instr) : rowOf i ∈ opcodeTable := by cases i <;> simp [rowOf, opcodeTable]

/-- The mnemonics of the map tell its rows apart. -/
theorem eq_of_mnemonic_eq : ∀ r₁ ∈ opcodeTable, ∀ r₂ ∈ opcodeTable, r₁.mnemonic = r₂.mnemonic → r₁ = r₂ := by decide

theorem encodeWord_and_rowOf_mask (i : Instr) : encodeWord i &&& (rowOf i).mask = (rowOf i).pattern := by
  cases i with
  | nop => rfl
  | crc => rfl
  | rdrem => rfl
  | rdstat => rfl
  | ldkey len o => exact (and_maskFieldA_iff _ 0x02).2 (by simp [encodeWord])
  | lddvd len o => exact (and_maskFieldA_iff _ 0x03).2 (by simp [encodeWord])
  | s2i len o => exact (and_maskFieldA_iff _ 0x07).2 (by simp [encodeWord])
  | i2s width o => exact (and_maskFieldA_iff _ 0x08).2 (by simp [encodeWord])
  | digits len start stop o => exact (and_maskAllFields_iff _ 0x09).2 (by simp [encodeWord])

/-- A word in a row of the map is the word of one of the row's commands, whatever the operand. -/
theorem exists_command_of_row {w : Word} {row : OpcodeRow} (o : Nat) (hm : row ∈ opcodeTable)
    (h : w &&& row.mask = row.pattern) : ∃ i, rowOf i = row ∧ fieldsMean w i ∧ carriesOperand o i := by
  simp only [opcodeTable, List.mem_cons, List.not_mem_nil, or_false] at hm
  rcases hm with rfl | rfl | rfl | rfl | rfl | rfl | rfl | rfl | rfl
  · exact ⟨.nop, rfl, (and_maskNoField_iff w 0x01).1 h, trivial⟩
  · obtain ⟨hop, hbc⟩ := (and_maskFieldA_iff w 0x02).1 h
    exact ⟨.ldkey (fieldA w) o, rfl, ⟨hop, rfl, hbc⟩, rfl⟩
  · obtain ⟨hop, hbc⟩ := (and_maskFieldA_iff w 0x03).1 h
    exact ⟨.lddvd (fieldA w) o, rfl, ⟨hop, rfl, hbc⟩, rfl⟩
  · exact ⟨.crc, rfl, (and_maskNoField_iff w 0x04).1 h, trivial⟩
  · exact ⟨.rdrem, rfl, (and_maskNoField_iff w 0x05).1 h, trivial⟩
  · exact ⟨.rdstat, rfl, (and_maskNoField_iff w 0x06).1 h, trivial⟩
  · obtain ⟨hop, hbc⟩ := (and_maskFieldA_iff w 0x07).1 h
    exact ⟨.s2i (fieldA w) o, rfl, ⟨hop, rfl, hbc⟩, rfl⟩
  · obtain ⟨hop, hbc⟩ := (and_maskFieldA_iff w 0x08).1 h
    exact ⟨.i2s (fieldA w) o, rfl, ⟨hop, rfl, hbc⟩, rfl⟩
  · have hop := (and_maskAllFields_iff w 0x09).1 h
    exact ⟨.digits (fieldA w) (fieldB w) (fieldC w) o, rfl, ⟨hop, rfl, rfl, rfl⟩, rfl⟩

theorem excludes_comm (r₁ r₂ : OpcodeRow) : r₁.excludes r₂ = r₂.excludes r₁ := by
  rw [OpcodeRow.excludes, OpcodeRow.excludes, BitVec.and_comm r₂.mask, bne_comm]

/-- R75: no word is in two rows, since two rows that differ exclude each other. -/
theorem eq_of_covers {w : Word} {r₁ r₂ : OpcodeRow} (m₁ : r₁ ∈ opcodeTable) (m₂ : r₂ ∈ opcodeTable)
    (h₁ : w &&& r₁.mask = r₁.pattern) (h₂ : w &&& r₂.mask = r₂.pattern) : r₁ = r₂ := by
  by_contra hne
  have hsymm : Std.Symm fun a b : OpcodeRow => a.excludes b = true := ⟨fun a b h => (excludes_comm b a).trans h⟩
  have hex : r₁.excludes r₂ = true := opcodeTable_pairwise_excludes.forall m₁ m₂ hne
  simp [not_excludes_of_covers h₁ h₂] at hex

/-- Under the mask of OP alone a word is its opcode. -/
theorem and_opMask_toNat (w : Word) : (w &&& 0x000000FF).toNat = (fieldOP w).toNat := by
  rw [(and_maskAllFields_iff w (fieldOP w)).2 rfl, commandWord_toNat]
  simp

/-- Settles O7: each command's word is in its own row, and each word of a row is the word of one of the row's commands. -/
theorem decodeAcceptsTheOpcodeMapOnly : Obligations.DecodeAcceptsTheOpcodeMapOnly := by
  refine ⟨rfl, fun w o row hm => ⟨fun h => ?_, ?_⟩, fun w r₁ r₂ m₁ m₂ => eq_of_covers m₁ m₂, fun w o i h => ?_⟩
  · obtain ⟨i, rfl, hf, ho⟩ := exists_command_of_row o hm h
    exact ⟨i, decode_eq_ok_iff.2 ⟨(fieldsMean_iff w i).1 hf, ho⟩, (rowOf_mnemonic i).symm, hf⟩
  · rintro ⟨i, -, hn, hf⟩
    have hrow : rowOf i = row := eq_of_mnemonic_eq _ (rowOf_mem i) _ hm ((rowOf_mnemonic i).trans hn)
    rw [← hrow, (fieldsMean_iff w i).1 hf]
    exact encodeWord_and_rowOf_mask i
  · have hop : fieldOP w = 0x00 ∨ 0x0A ≤ (fieldOP w).toNat := by
      rw [← and_opMask_toNat]
      refine h.imp_left fun h0 => BitVec.eq_of_toNat_eq ?_
      rw [← and_opMask_toNat, h0]
      rfl
    simp [decode_of_opIllegal o hop]

end Sys2Proof.Machine
end

section
/-!
PROOFS. The codec functions and the two codec commands that read numbers (40_codec.md R101, R104, R105), with what every
command shares: how its encoding is refused (30_encoding.md R74) and that the fault state refuses it (R182).
-/

namespace Sys2Proof.Machine

open Sys2Proof.Says

/-! ## Encoding and refusal, for any command -/

/-- An opcode's encoding, from what the decoder answers: the command where the unused fields are 0, and no command where one
of them is not. -/
theorem encoded_of_decode {op : Byte} {a b c : Bool} {command : Word → Nat → Instr}
    (legal : ∀ w o, fieldOP w = op → unusedZero a b c w → decode w o = .ok (command w o))
    (illegal : ∀ w o, fieldOP w = op → ¬unusedZero a b c w → ∀ i, decode w o ≠ .ok i) :
    encoded op a b c command := by
  intro s w o rest hp hop
  refine ⟨fun hz => ?_, fun hz hf => ?_, fun hz hf => ?_⟩
  · rw [step_of_presents hp, runCommand, legal w o hop hz]
  · rw [step_of_presents hp, runCommand_illegal (illegal w o hop hz)]
    simp [hf]
  · rw [step_of_presents hp, runCommand_illegal (illegal w o hop hz)]
    simp [hf]

/-- R74: the encoding of an opcode that uses A alone. -/
theorem encoded_of_decodeFieldA {op : Byte} {command : Word → Nat → Instr}
    (h : ∀ w o, fieldOP w = op → decode w o = decodeFieldA w (command w o)) : encoded op true false false command := by
  have unused : ∀ w, unusedZero true false false w ↔ fieldB w = 0 ∧ fieldC w = 0 := by simp [unusedZero]
  refine encoded_of_decode (fun w o hop hz => ?_) (fun w o hop hz i hi => hz ?_)
  · rw [h w o hop, decodeFieldA_eq_ok_iff]
    exact ⟨rfl, (unused w).1 hz⟩
  · rw [h w o hop, decodeFieldA_eq_ok_iff] at hi
    exact (unused w).2 hi.2

/-- R182: RDSTAT is the one command that the fault state does not refuse. -/
theorem refusedWhileFaulted_of_ne_rdstat {i : Instr} (h : i ≠ .rdstat) : refusedWhileFaulted i :=
  fun _ hf => exec_faulted hf h

/-! ## The codec functions as sums -/

/-- R101: the loop's value is the big-endian sum; each turn doubles the weight of the lanes already read. -/
theorem toInteger_eq_sum (s : Seq) (len : Nat) :
    toInteger s len = ∑ i ∈ Finset.range len, (lane s i).toNat * 2 ^ (len - 1 - i) := by
  induction len with
  | zero => rfl
  | succ len ih =>
    have weight : ∀ i ∈ Finset.range len, (lane s i).toNat * 2 ^ (len + 1 - 1 - i) =
        2 * ((lane s i).toNat * 2 ^ (len - 1 - i)) := by
      intro i hi
      have hlt : i < len := Finset.mem_range.1 hi
      rw [show len + 1 - 1 - i = len - 1 - i + 1 by omega, pow_succ]
      ring
    rw [toInteger, ih, Finset.sum_range_succ, Finset.sum_congr rfl weight, ← Finset.mul_sum]
    simp

/-- R101, R76: the value of the sequence that an operand carries. -/
theorem toInteger_seqOf (opnd len : Nat) :
    toInteger (seqOf opnd len) len = ∑ i ∈ Finset.range len, (opnd.testBit i).toNat * 2 ^ (len - 1 - i) := by
  rw [toInteger_eq_sum]
  refine Finset.sum_congr rfl fun i hi => ?_
  simp [lane_seqOf, Finset.mem_range.1 hi]

/-- R77: the integer form is the sum of the operand's weighted bits below `MAX_LEN`. -/
theorem intOf_eq_sum (cfg : Config) (opnd : Nat) :
    intOf cfg opnd = ∑ j ∈ Finset.range cfg.maxLen, (opnd.testBit j).toNat * 2 ^ j := by
  unfold intOf
  induction cfg.maxLen with
  | zero => simp [Nat.mod_one]
  | succ n ih => rw [Nat.mod_pow_succ, ih, Finset.sum_range_succ, Nat.toNat_testBit, mul_comm (2 ^ n)]

/-- R105, R80: an expanded value in the lanes of a payload. -/
theorem fillLanes_expand (cfg : Config) (v width : Nat) :
    fillLanes cfg (expand v width) width =
      (List.range cfg.maxLen).map fun i => if i < width then v.testBit (width - 1 - i) else false := by
  rw [fillLanes]
  refine List.map_congr_left fun i _ => ?_
  by_cases h : i < width <;> simp [lane_expand, h]

/-- Settles O39: the sum is the loop's by induction on the length; the bound and the zero cases are the laws of
`toInteger`. -/
theorem toIntegerIsTheBigEndianSum : Obligations.ToIntegerIsTheBigEndianSum := fun s len =>
  ⟨toInteger_eq_sum s len, rfl, toInteger_lt s len, (toInteger_eq_zero_iff s len).2, rfl⟩

/-! ## S2I -/

section S2i

variable {s : State} {len : Byte} (o : Nat)

theorem exec_s2i_of_maxLen_lt (hf : s.fault = false) (hl : s.cfg.maxLen < len.toNat) :
    exec (.s2i len o) s = .next (raised s .eLen) := by
  rw [exec, execS2i, unlessFaulted_clear hf, if_pos hl, raiseError_eq_raised]

theorem exec_s2i_of_le_maxLen (hf : s.fault = false) (hl : len.toNat ≤ s.cfg.maxLen) :
    exec (.s2i len o) s = .next (answered s .ok (.int (toInteger (seqOf o len.toNat) len.toNat))) := by
  rw [exec, execS2i, unlessFaulted_clear hf, if_neg hl.not_gt, respondOk_eq, answered]

end S2i

/-- Settles O18: the answer is `toInteger` of the operand's sequence, which is the sum of its weighted bits. -/
theorem s2iAnswersTheBigEndianValue : Obligations.S2iAnswersTheBigEndianValue := by
  refine ⟨encoded_of_decodeFieldA fun _ o => decode_of_opS2i o,
    fun _ _ => refusedWhileFaulted_of_ne_rdstat (by simp), fun s len o hf => ⟨exec_s2i_of_maxLen_lt o hf, fun hl => ?_⟩⟩
  rw [exec_s2i_of_le_maxLen o hf hl, toInteger_seqOf]

/-! ## I2S -/

section I2s

variable {s : State} {width : Byte} {o : Nat}

theorem exec_i2s_of_maxLen_lt (hf : s.fault = false) (hw : s.cfg.maxLen < width.toNat) :
    exec (.i2s width o) s = .next (raised s .eLen) := by
  rw [exec, execI2s, unlessFaulted_clear hf, if_pos hw, raiseError_eq_raised]

/-- R183: the width is checked before the value's range. -/
theorem exec_i2s_of_two_pow_le (hf : s.fault = false) (hw : width.toNat ≤ s.cfg.maxLen)
    (hv : 2 ^ width.toNat ≤ intOf s.cfg o) : exec (.i2s width o) s = .next (raised s .eRange) := by
  rw [exec, execI2s, unlessFaulted_clear hf, if_neg hw.not_gt, if_pos hv, raiseError_eq_raised]

theorem exec_i2s_of_lt_two_pow (hf : s.fault = false) (hw : width.toNat ≤ s.cfg.maxLen)
    (hv : intOf s.cfg o < 2 ^ width.toNat) :
    exec (.i2s width o) s = .next (answered s .ok
      (.seq (fillLanes s.cfg (expand (intOf s.cfg o) width.toNat) width.toNat) width)) := by
  rw [exec, execI2s, unlessFaulted_clear hf, if_neg hw.not_gt, if_neg hv.not_ge, respondOk_eq, answered]

end I2s

/-- Settles O19: the value summed from the operand's bits is its integer form, and the payload's lanes are those of its
expansion. -/
theorem i2sAnswersTheExpansion : Obligations.I2sAnswersTheExpansion := by
  refine ⟨encoded_of_decodeFieldA fun _ o => decode_of_opI2s o,
    fun _ _ => refusedWhileFaulted_of_ne_rdstat (by simp), fun s width o hf => ?_⟩
  simp only [← intOf_eq_sum, ← fillLanes_expand]
  exact ⟨exec_i2s_of_maxLen_lt hf, exec_i2s_of_two_pow_le hf, exec_i2s_of_lt_two_pow hf⟩

end Sys2Proof.Machine
end

section
/-!
PROOFS. The divider commands (41_divider.md R131, R132, R133, R143) and the division loop as the source writes it (R134).
-/

namespace Sys2Proof.Machine

open Sys2Proof.Says

/-- R74: the encoding of an opcode that uses no field. -/
theorem encoded_of_decodeNoField {op : Byte} {command : Word → Nat → Instr}
    (h : ∀ w o, fieldOP w = op → decode w o = decodeNoField w (command w o)) :
    encoded op false false false command := by
  have unused : ∀ w, unusedZero false false false w ↔ fieldA w = 0 ∧ fieldB w = 0 ∧ fieldC w = 0 := by simp [unusedZero]
  refine encoded_of_decode (fun w o hop hz => ?_) (fun w o hop hz i hi => hz ?_)
  · rw [h w o hop, decodeNoField_eq_ok_iff]
    exact ⟨rfl, (unused w).1 hz⟩
  · rw [h w o hop, decodeNoField_eq_ok_iff] at hi
    exact (unused w).2 hi.2

/-! ## LDKEY -/

/-- R76, R131: the value of the sequence that an operand carries is 0 exactly when its bits below the length are all 0. -/
theorem toInteger_seqOf_eq_zero_iff (opnd len : Nat) :
    toInteger (seqOf opnd len) len = 0 ↔ ∀ i < len, opnd.testBit i = false := by
  rw [toInteger_eq_zero_iff]
  refine forall₂_congr fun i hi => ?_
  simp [lane_seqOf, hi]

section Ldkey

variable {s : State} {len : Byte} {o : Nat}

theorem exec_ldkey_of_badLength (hf : s.fault = false) (hl : len.toNat < 2 ∨ s.cfg.maxLen < len.toNat) :
    exec (.ldkey len o) s = .next (raised s .eKeylen) := by
  rw [exec, execLdkey, unlessFaulted_clear hf, if_pos hl, raiseError_eq_raised]

/-- R183: the length is checked before the digits. -/
theorem exec_ldkey_of_allZero (hf : s.fault = false) (h2 : 2 ≤ len.toNat) (hl : len.toNat ≤ s.cfg.maxLen)
    (hz : ∀ i < len.toNat, o.testBit i = false) : exec (.ldkey len o) s = .next (raised s .eKeyzero) := by
  rw [exec, execLdkey, unlessFaulted_clear hf, if_neg (by omega), if_pos ((toInteger_seqOf_eq_zero_iff _ _).2 hz),
    raiseError_eq_raised]

theorem exec_ldkey_of_nonzero (hf : s.fault = false) (h2 : 2 ≤ len.toNat) (hl : len.toNat ≤ s.cfg.maxLen)
    (hn : ∃ i < len.toNat, o.testBit i = true) :
    exec (.ldkey len o) s = .next (answered
      { s with keySeq := lanesOfOperand s.cfg o len.toNat, keyLen := len, keyValid := true } .ok .none) := by
  have hv : ¬toInteger (seqOf o len.toNat) len.toNat = 0 := by
    rw [toInteger_seqOf_eq_zero_iff]
    obtain ⟨i, hi, hb⟩ := hn
    intro hz
    simp [hz i hi] at hb
  rw [exec, execLdkey, unlessFaulted_clear hf, if_neg (by omega), if_neg hv, respondOk_eq, State.loadKey, fillLanes_seqOf]
  rfl

end Ldkey

/-- Settles O21: one clause per outcome of the two checks; the digits are all 0 exactly when their value is. -/
theorem ldkeyLoadsTheDivisor : Obligations.LdkeyLoadsTheDivisor :=
  ⟨encoded_of_decodeFieldA fun _ o => decode_of_opLdkey o,
    fun _ _ => refusedWhileFaulted_of_ne_rdstat (by simp),
    fun _ _ _ hf => ⟨exec_ldkey_of_badLength hf, exec_ldkey_of_allZero hf, exec_ldkey_of_nonzero hf⟩⟩

/-! ## LDDVD -/

section Lddvd

variable {s : State} {len : Byte} {o : Nat}

theorem exec_lddvd_of_maxLen_lt (hf : s.fault = false) (hl : s.cfg.maxLen < len.toNat) :
    exec (.lddvd len o) s = .next (raised s .eLen) := by
  rw [exec, execLddvd, unlessFaulted_clear hf, if_pos hl, raiseError_eq_raised]

theorem exec_lddvd_of_le_maxLen (hf : s.fault = false) (hl : len.toNat ≤ s.cfg.maxLen) :
    exec (.lddvd len o) s = .next (answered
      { s with dvdSeq := lanesOfOperand s.cfg o len.toNat, dvdLen := len, dvdValid := true } .ok .none) := by
  rw [exec, execLddvd, unlessFaulted_clear hf, if_neg hl.not_gt, respondOk_eq, State.loadDvd, fillLanes_seqOf]
  rfl

end Lddvd

/-- Settles O22: the length decides, and the register's lanes are the operand's bits (R76). -/
theorem lddvdLoadsTheDividend : Obligations.LddvdLoadsTheDividend :=
  ⟨encoded_of_decodeFieldA fun _ o => decode_of_opLddvd o,
    fun _ _ => refusedWhileFaulted_of_ne_rdstat (by simp),
    fun _ _ _ hf => ⟨exec_lddvd_of_maxLen_lt hf, exec_lddvd_of_le_maxLen hf⟩⟩

/-! ## CRC -/

theorem exec_crc_of_valid {s : State} (hf : s.fault = false) (hk : s.keyValid = true) (hd : s.dvdValid = true) :
    exec .crc s = .next s.acceptCrc := by
  rw [exec, execCrc, unlessFaulted_clear hf, if_neg (by simp [hk]), if_neg (by simp [hd])]

/-- R140, R141: what the engine's step leaves unchanged. -/
theorem engineStep_frame {s t : State} (h : engineStep s = .next t) :
    t = { s with wr := t.wr, rem := t.rem, remValid := t.remValid, busy := t.busy, responses := t.responses } := by
  rcases engineStep_cases h with ⟨-, rfl⟩ | ⟨-, rfl⟩
  case inl => rfl
  case inr => rfl

/-- Settles O23: the two refusals are the valid-flag checks, the accepted CRC copies the registers' values, which are
big-endian sums (R101), and the engine's step is ITERATE or FINISH. -/
theorem crcStartsTheDivision : Obligations.CrcStartsTheDivision := by
  refine ⟨encoded_of_decodeNoField fun _ o => decode_of_opCrc o, refusedWhileFaulted_of_ne_rdstat (by simp),
    fun _ _ => engineStep_frame, fun s hf => ?_⟩
  refine ⟨exec_crc_of_keyValid_false hf, exec_crc_of_dvdValid_false hf, fun hk hd => ?_⟩
  rw [exec_crc_of_valid hf hk hd, acceptCrc_eq, toInteger_eq_sum, toInteger_eq_sum]

/-! ## RDREM -/

theorem exec_rdrem_of_remValid {s : State} (hf : s.fault = false) (hr : s.remValid = true) :
    exec .rdrem s = .next (answered s .ok (.int s.rem)) := by
  rw [exec, execRdrem, unlessFaulted_clear hf, if_neg (by simp [hr]), respondOk_eq, answered]

/-- Settles O24: the one check of RDREM is that a remainder is there. -/
theorem rdremAnswersTheLastRemainder : Obligations.RdremAnswersTheLastRemainder :=
  ⟨encoded_of_decodeNoField fun _ o => decode_of_opRdrem o, refusedWhileFaulted_of_ne_rdstat (by simp),
    fun _ hf => ⟨exec_rdrem_of_remValid_false hf, exec_rdrem_of_remValid hf⟩⟩

/-! ## The loop of `computeRemainder` -/

/-- R134: the loop run to its end; `bitLength r` turns are enough (R144). -/
def divLoopToEnd (r p : Nat) : Nat := divLoop (bitLength r) r p

/-- R134: the loop goes on from one turn's result while the guard holds, and ends where it does not. -/
theorem divLoopToEnd_eq (r p : Nat) :
    divLoopToEnd r p = if divGuard r p then divLoopToEnd (divStep r p) p else r := by
  cases hg : divGuard r p with
  | true => exact divLoop_step hg
  | false => exact divLoop_done hg _

theorem computeRemainder_eq_divLoopToEnd (k : Seq) (kl : Nat) (d : Seq) (dl : Nat) :
    computeRemainder k kl d dl = divLoopToEnd (toInteger d dl) (toInteger k kl) % 2 ^ (kl - 1) := rfl

/-- Settles O32: the loop function is the model's loop with enough fuel to reach the guard's end. -/
theorem computeRemainderIsTheLoop : Obligations.ComputeRemainderIsTheLoop := by
  refine ⟨divLoopToEnd, fun r p => ?_, computeRemainder_eq_divLoopToEnd⟩
  rw [divLoopToEnd_eq, divStep]
  exact if_congr (divGuard_iff r p) rfl rfl

end Sys2Proof.Machine
end

section
/-!
PROOFS. The system commands NOP and RDSTAT (42_system.md R170, R171) and the fields of the STATUS word (10_state.md R33).
-/

namespace Sys2Proof.Machine

open Sys2Proof.Says

/-! ## The fields of the STATUS word -/

/-- A flag's word holds the flag on its own bit and 0 on every other. -/
@[simp] theorem flagBit_getElem (b : Bool) (k j : Nat) (hj : j < 32) : (flagBit b k)[j] = (decide (j = k) && b) := by
  rcases lt_trichotomy j k with hlt | rfl | hgt
  · simp [flagBit, hlt, hlt.ne]
  · simp [flagBit]
  · simp [flagBit, hgt.ne', show j - k ≠ 0 by omega, show ¬j < k by omega]

theorem statusWord_fault (s : State) : (statusWord s).getLsbD 0 = s.fault := by simp [statusWord]

theorem statusWord_keyValid (s : State) : (statusWord s).getLsbD 1 = s.keyValid := by simp [statusWord]

theorem statusWord_dvdValid (s : State) : (statusWord s).getLsbD 2 = s.dvdValid := by simp [statusWord]

theorem statusWord_remValid (s : State) : (statusWord s).getLsbD 3 = s.remValid := by simp [statusWord]

/-- R33: bits 7:4 are above the flags and below ERR_CAUSE. -/
theorem statusWord_reserved (s : State) : (statusWord s).extractLsb' 4 4 = 0 := by
  refine BitVec.eq_of_getLsbD_eq fun i hi => ?_
  simp [hi, statusWord, BitVec.getLsbD_eq_getElem (show 4 + i < 32 by omega), show 4 + i < 8 by omega,
    show 4 + i < 16 by omega, show 4 + i < 24 by omega, show 4 + i ≠ 1 by omega, show 4 + i ≠ 2 by omega,
    show 4 + i ≠ 3 by omega]

/-- R33: from bit 8 on, a bit belongs to ERR_CAUSE, KEY_LEN or DVD_LEN. -/
theorem statusWord_getLsbD_of_8_le (s : State) {j : Nat} (hj : 8 ≤ j) (hj' : j < 32) :
    (statusWord s).getLsbD j = (s.errCause.getLsbD (j - 8) || !decide (j < 16) && s.keyLen.getLsbD (j - 16) ||
      !decide (j < 24) && s.dvdLen.getLsbD (j - 24)) := by
  rw [BitVec.getLsbD_eq_getElem hj']
  simp [statusWord, show ¬j < 8 by omega, show j ≠ 0 by omega, show j ≠ 1 by omega, show j ≠ 2 by omega,
    show j ≠ 3 by omega]

theorem statusWord_errCause (s : State) : (statusWord s).extractLsb' 8 8 = s.errCause := by
  refine BitVec.eq_of_getLsbD_eq fun i hi => ?_
  simp [hi, statusWord_getLsbD_of_8_le s (show 8 ≤ 8 + i by omega) (by omega), show 8 + i < 16 by omega,
    show 8 + i < 24 by omega]

theorem statusWord_keyLen (s : State) : (statusWord s).extractLsb' 16 8 = s.keyLen := by
  refine BitVec.eq_of_getLsbD_eq fun i hi => ?_
  simp [hi, statusWord_getLsbD_of_8_le s (show 8 ≤ 16 + i by omega) (by omega), show 16 + i < 24 by omega,
    BitVec.getLsbD_of_ge s.errCause (16 + i - 8) (by omega)]

theorem statusWord_dvdLen (s : State) : (statusWord s).extractLsb' 24 8 = s.dvdLen := by
  refine BitVec.eq_of_getLsbD_eq fun i hi => ?_
  simp [hi, statusWord_getLsbD_of_8_le s (show 8 ≤ 24 + i by omega) (by omega),
    BitVec.getLsbD_of_ge s.errCause (24 + i - 8) (by omega), BitVec.getLsbD_of_ge s.keyLen (24 + i - 16) (by omega)]

/-- R36: at the reset values the STATUS word is 0. -/
theorem statusWord_resetOf (cfg : Config) : statusWord (State.resetOf cfg) = 0 := by
  simp [statusWord, State.resetOf, flagBit]

/-! ## NOP -/

/-- R170: outside the fault state NOP answers OK and leaves the state as it is. -/
theorem exec_nop_of_fault_false {s : State} (hf : s.fault = false) : exec .nop s = .next (answered s .ok .none) := by
  rw [exec, execNop, unlessFaulted_clear hf, respondOk_eq, answered]

/-- Settles O16: NOP's one check is the fault state's, which reset leaves clear. -/
theorem nopAnswersOk : Obligations.NopAnswersOk :=
  ⟨encoded_of_decodeNoField fun _ o => decode_of_opNop o, refusedWhileFaulted_of_ne_rdstat (by simp),
    fun _ => exec_nop_of_fault_false, fun _ => exec_nop_of_fault_false rfl⟩

/-! ## RDSTAT -/

/-- R171: RDSTAT makes no fault-state check. -/
theorem exec_rdstat (s : State) : exec .rdstat s = .next (answered s .ok (.status (statusWord s))) := by
  rw [exec, execRdstat, respondOk_eq, answered]

/-- Settles O17: the answer is the STATUS word, and each field of it holds its register; outside the fault
state the cause is 0 by R32 item 5. -/
theorem rdstatAnswersTheStatusWord : Obligations.RdstatAnswersTheStatusWord := by
  refine ⟨encoded_of_decodeNoField fun _ o => decode_of_opRdstat o, fun s => ⟨statusWord s, exec_rdstat s, ?_⟩,
    fun cfg => ?_⟩
  · refine ⟨statusWord_fault s, statusWord_keyValid s, statusWord_dvdValid s, statusWord_remValid s, statusWord_reserved s,
      statusWord_errCause s, statusWord_keyLen s, statusWord_dvdLen s, fun ⟨hclear, _⟩ hf => ?_⟩
    rw [statusWord_errCause, hclear hf]
  · rw [exec_rdstat, statusWord_resetOf]

end Sys2Proof.Machine
end

section
/-!
PROOFS. The fault state (60_exceptions.md R182, R184, R186): what it refuses, which steps enter it, and which leave it.
-/

namespace Sys2Proof.Machine

open Sys2Proof.Says

/-! ## What the fault state refuses -/

theorem decode_word_six (o : Nat) : decode 0x00000006 o = .ok .rdstat := decode_encodeWord (i := .rdstat) trivial

/-- R182: a word that decodes to RDSTAT is the one exempt word. -/
theorem eq_six_of_decode_rdstat {w : Word} {o : Nat} (h : decode w o = .ok .rdstat) : w = 0x00000006 :=
  (decode_eq_ok_iff.1 h).1

/-- R182: in the fault state a taken word other than the exempt one is refused, be it a command or not (R183). -/
theorem runCommand_of_fault_of_ne {s : State} {w : Word} (o : Nat) (hf : s.fault = true) (hw : w ≠ 0x00000006) :
    runCommand w o s = .next (answered s .faulted .none) := by
  unfold runCommand
  cases hd : decode w o with
  | error e => exact unlessFaulted_faulted hf _
  | ok i => exact exec_faulted hf fun hi => hw (eq_six_of_decode_rdstat (hi ▸ hd))

/-- R182: the exempt word is executed, in the fault state as elsewhere. -/
theorem runCommand_six (s : State) (o : Nat) :
    runCommand 0x00000006 o s = .next (answered s .ok (.status (statusWord s))) := by
  rw [runCommand, decode_word_six]
  exact exec_rdstat s

/-- Settles O11: a presented word is taken, and the fault state refuses every word but the one that decodes to RDSTAT. -/
theorem faultStateRefusesAllButRdstat : Obligations.FaultStateRefusesAllButRdstat := by
  intro s w o rest hp hf
  rw [step_of_presents hp]
  refine ⟨runCommand_of_fault_of_ne o hf, ?_⟩
  rintro rfl
  exact runCommand_six _ o

/-! ## Which steps take an error -/

/-- From `s` to `t` no error is taken: FAULT does not rise, and a response that is added carries no error's code. -/
def TakesNoError (s t : State) : Prop :=
  (t.fault = true → s.fault = true) ∧ ∀ r : Response, t.responses = s.responses ++ [r] → r.code = .ok ∨ r.code = .faulted

/-- A step without a response answers no error. -/
theorem takesNoError_of_silent {s t : State} (hf : t.fault = true → s.fault = true) (hr : t.responses = s.responses) :
    TakesNoError s t :=
  ⟨hf, fun r h => by simp [hr] at h⟩

/-- A step whose response is OK or FAULTED answers no error. -/
theorem takesNoError_of_answer {s t : State} {c : Code} {p : Payload} (hf : t.fault = true → s.fault = true)
    (hr : t.responses = s.responses ++ [⟨c, p⟩]) (hc : c = .ok ∨ c = .faulted) : TakesNoError s t := by
  refine ⟨hf, fun r h => ?_⟩
  obtain rfl : ⟨c, p⟩ = r := by simpa [hr] using h
  exact hc

/-- R184: a command takes an error, FAULT being 0 and the state becoming `raised`, or it takes none. -/
theorem exec_takes_error_or_none {i : Instr} {s t : State} (h : exec i s = .next t) :
    (s.fault = false ∧ ∃ c, c ≠ .ok ∧ c ≠ .faulted ∧ t = raised s c) ∨ TakesNoError s t := by
  rcases exec_cases h with ⟨-, -, rfl⟩ | hraised | ⟨p, rfl, -⟩ | ⟨len, o, -, -, -, -, -, rfl⟩ | ⟨len, o, -, -, -, rfl⟩ |
    ⟨-, -, -, -, rfl⟩
  · exact .inr (takesNoError_of_answer id rfl (.inr rfl))
  · exact .inl hraised
  · exact .inr (takesNoError_of_answer id rfl (.inl rfl))
  · exact .inr (takesNoError_of_answer id rfl (.inl rfl))
  · exact .inr (takesNoError_of_answer id rfl (.inl rfl))
  · exact .inr (takesNoError_of_silent id rfl)

/-- R184 for a word that is taken, a command or not. -/
theorem runCommand_takes_error_or_none {w : Word} {o : Nat} {s t : State} (h : runCommand w o s = .next t) :
    (s.fault = false ∧ ∃ c, c ≠ .ok ∧ c ≠ .faulted ∧ t = raised s c) ∨ TakesNoError s t := by
  rcases runCommand_cases h with ⟨i, -, hx⟩ | ⟨e, -, hf, rfl⟩ | ⟨e, -, -, rfl⟩
  · exact exec_takes_error_or_none hx
  · exact .inl ⟨hf, .eIllegal, by decide, by decide, rfl⟩
  · exact .inr (takesNoError_of_answer id rfl (.inr rfl))

/-- R185: the engine's steps raise no error. -/
theorem engineStep_takesNoError {s t : State} (h : engineStep s = .next t) : TakesNoError s t := by
  rcases engineStep_cases h with ⟨-, rfl⟩ | ⟨-, rfl⟩
  · exact takesNoError_of_silent id rfl
  · exact takesNoError_of_answer id rfl (.inl rfl)

/-- R184: a step takes an error, being a presented command's step from FAULT = 0 to `raised`, or it takes none. -/
theorem step_takes_error_or_none {s t : State} (h : step s = .next t) :
    (s.fault = false ∧ ∃ (c : Code) (w : Word) (o : Nat) (rest : List HostMove),
      presents s w o rest ∧ c ≠ .ok ∧ c ≠ .faulted ∧ t = raised { s with host := rest } c) ∨ TakesNoError s t := by
  rcases step_cases h with ⟨w, o, rest, hb, hh, -, hx⟩ | ⟨-, -, hx⟩ | ⟨rest, -, rfl⟩ | ⟨-, -, -, rfl⟩
  · exact (runCommand_takes_error_or_none hx).imp_left fun ⟨hf, c, hok, hfaulted, ht⟩ =>
      ⟨hf, c, w, o, rest, ⟨hb, hh⟩, hok, hfaulted, ht⟩
  · exact .inr (engineStep_takesNoError (s := s.withHost (movesAfterTurn s.host)) hx)
  · exact .inr (takesNoError_of_silent nofun rfl)
  · exact .inr (takesNoError_of_silent id rfl)

/-- Settles O12: a step that raises FAULT, or answers an error's code, is one that takes an error, and such a step leaves
`raised` and nothing else. -/
theorem faultEntryLatchesOnlyTheCause : Obligations.FaultEntryLatchesOnlyTheCause := by
  refine ⟨fun s t h hs ht => ?_, fun s t r h hr hok hfaulted => ?_⟩
  · rcases step_takes_error_or_none h with ⟨-, hraised⟩ | ⟨hfault, -⟩
    · exact hraised
    · simp [hfault ht] at hs
  · rcases step_takes_error_or_none h with ⟨hf, c, w, o, rest, hp, -, -, rfl⟩ | ⟨-, hcode⟩
    · obtain rfl : ⟨c, .none⟩ = r := by simpa [raised] using hr
      exact ⟨hf, w, o, rest, hp, rfl⟩
    · exact absurd (hcode r hr) (by simp [hok, hfaulted])

/-! ## Which steps leave the fault state -/

/-- R182, R186: a word taken in the fault state is answered, and nothing of the block changes. -/
theorem runCommand_answers_of_fault {w : Word} {o : Nat} {s t : State} (hf : s.fault = true)
    (h : runCommand w o s = .next t) : ∃ c p, t = answered s c p := by
  by_cases hw : w = 0x00000006
  · subst hw
    rw [runCommand_six, Host.Outcome.next.injEq] at h
    exact ⟨_, _, h.symm⟩
  · rw [runCommand_of_fault_of_ne o hf hw, Host.Outcome.next.injEq] at h
    exact ⟨_, _, h.symm⟩

/-- Settles O13: without a reset a step in the fault state only answers, or is the engine's, which writes neither FAULT nor
ERR_CAUSE, or holds the state; and a reset clears both. -/
theorem onlyResetLeavesTheFaultState : Obligations.OnlyResetLeavesTheFaultState := by
  refine ⟨fun s t hf h hnone => ?_, fun s rest hr => ⟨_, step_of_resetMove hr, rfl, rfl⟩⟩
  rcases step_cases h with ⟨w, o, rest, -, -, -, hx⟩ | ⟨hb, -, hx⟩ | ⟨rest, hr, -⟩ | ⟨-, -, -, rfl⟩
  · obtain ⟨c, p, rfl⟩ := runCommand_answers_of_fault (s := s.withHost rest) hf hx
    exact ⟨hf, rfl, fun _ => rfl⟩
  · rw [engineStep_frame hx]
    exact ⟨hf, rfl, fun hidle => by simp [hb] at hidle⟩
  · simp [hnone] at hr
  · exact ⟨hf, rfl, fun _ => rfl⟩

end Sys2Proof.Machine
end

section
/-!
PROOFS. The codes that commands answer (60_exceptions.md R181) and the order of the checks (R183).
-/

namespace Sys2Proof.Machine

open Sys2Proof.Says

/-! ## Which codes a command answers -/

/-- R181: a next state of `out` has one response more than `s`, OK or one of the command's codes, with no payload unless OK;
or the command is a CRC that has been accepted (R133). -/
def AnswersListed (i : Instr) (s : State) (out : Host.Outcome State Fault Refusal) : Prop :=
  ∀ t, out = .next t →
    (∃ r : Response, t.responses = s.responses ++ [r] ∧ (r.code = .ok ∨ r.code ∈ errorCodes i) ∧
      (r.code ≠ .ok → r.payload = .none)) ∨
    (i = .crc ∧ t.busy = true ∧ t.responses = s.responses)

section AnswersListed

variable {i : Instr} {s : State}

theorem answersListed_respondOk {u : State} (p : Payload) (hu : u.responses = s.responses) :
    AnswersListed i s (respondOk p u) := by
  rintro _ ⟨⟩
  exact .inl ⟨⟨.ok, p⟩, by simp [hu], .inl rfl, fun h => absurd rfl h⟩

/-- R183: a check adds its own code to those of the checks behind it. -/
theorem answersListed_check {c : Code} {b : Prop} [Decidable b] {body : Host.Outcome State Fault Refusal}
    (hc : c ∈ errorCodes i) (hbody : AnswersListed i s body) : AnswersListed i s (if b then raiseError c s else body) := by
  split
  · rintro _ ⟨⟩
    exact .inl ⟨⟨c, .none⟩, rfl, .inr hc, fun _ => rfl⟩
  · exact hbody

/-- R182: the fault-state check adds FAULTED. -/
theorem answersListed_unlessFaulted {body : Host.Outcome State Fault Refusal} (hc : .faulted ∈ errorCodes i)
    (hbody : AnswersListed i s body) : AnswersListed i s (unlessFaulted s body) := by
  cases hf : s.fault with
  | true =>
    rw [unlessFaulted_faulted hf]
    rintro _ ⟨⟩
    exact .inl ⟨⟨.faulted, .none⟩, rfl, .inr hc, fun _ => rfl⟩
  | false => rwa [unlessFaulted_clear hf]

theorem answersListed_acceptCrc : AnswersListed .crc s (.next s.acceptCrc) := by
  rintro _ ⟨⟩
  exact .inr ⟨rfl, rfl, rfl⟩

/-- R181: the list is complete, command by command: its checks are those of its pseudocode. -/
theorem exec_answersListed (i : Instr) (s : State) : AnswersListed i s (exec i s) := by
  cases i with
  | rdstat => exact answersListed_respondOk _ rfl
  | nop => exact answersListed_unlessFaulted (by decide) (answersListed_respondOk _ rfl)
  | ldkey len o =>
    exact answersListed_unlessFaulted (by simp [errorCodes]) <| answersListed_check (by simp [errorCodes]) <|
      answersListed_check (by simp [errorCodes]) (answersListed_respondOk _ rfl)
  | lddvd len o =>
    exact answersListed_unlessFaulted (by simp [errorCodes]) <| answersListed_check (by simp [errorCodes])
      (answersListed_respondOk _ rfl)
  | crc =>
    exact answersListed_unlessFaulted (by decide) <| answersListed_check (by decide) <|
      answersListed_check (by decide) answersListed_acceptCrc
  | rdrem =>
    exact answersListed_unlessFaulted (by decide) <| answersListed_check (by decide) (answersListed_respondOk _ rfl)
  | s2i len o =>
    exact answersListed_unlessFaulted (by simp [errorCodes]) <| answersListed_check (by simp [errorCodes])
      (answersListed_respondOk _ rfl)
  | i2s width o =>
    exact answersListed_unlessFaulted (by simp [errorCodes]) <| answersListed_check (by simp [errorCodes]) <|
      answersListed_check (by simp [errorCodes]) (answersListed_respondOk _ rfl)
  | digits len start stop o =>
    exact answersListed_unlessFaulted (by simp [errorCodes]) <| answersListed_check (by simp [errorCodes]) <|
      answersListed_check (by simp [errorCodes]) (answersListed_respondOk _ rfl)

end AnswersListed

/-! ## DIGITS's two checks -/

section Digits

variable {s : State} {len start stop : Byte} (o : Nat)

theorem exec_digits_of_maxLen_lt (hf : s.fault = false) (hl : s.cfg.maxLen < len.toNat) :
    exec (.digits len start stop o) s = .next (raised s .eLen) := by
  rw [exec, execDigits, unlessFaulted_clear hf, if_pos hl, raiseError_eq_raised]

/-- R183: the length is checked before the range. -/
theorem exec_digits_of_badRange (hf : s.fault = false) (hl : len.toNat ≤ s.cfg.maxLen)
    (hr : ¬(start.toNat ≤ stop.toNat ∧ stop.toNat ≤ len.toNat)) :
    exec (.digits len start stop o) s = .next (raised s .eRange) := by
  rw [exec, execDigits, unlessFaulted_clear hf, if_neg hl.not_gt, if_pos hr, raiseError_eq_raised]

end Digits

/-! ## Each listed code occurs -/

/-- R181: the code is answered, with no payload, in some state by some command of the same row. -/
def CodeOccurs (i : Instr) (c : Code) : Prop :=
  ∃ (j : Instr) (s t : State), mnemonic j = mnemonic i ∧ exec j s = .next t ∧ t.responses = s.responses ++ [⟨c, .none⟩]

theorem codeOccurs_of_raised {i j : Instr} {s : State} {c : Code} (hj : mnemonic j = mnemonic i)
    (h : exec j s = .next (raised s c)) : CodeOccurs i c := ⟨j, s, _, hj, h, rfl⟩

/-- R182: FAULTED is answered after an RDREM that raised E_NOREM right after reset. -/
theorem codeOccurs_faulted {i : Instr} (hi : i ≠ .rdstat) : CodeOccurs i .faulted :=
  ⟨i, raised State.reset .eNorem, _, rfl, exec_faulted rfl hi, rfl⟩

/-- Each command's own codes, right after reset with MAX_LEN = 32, E_NODVD with a divisor loaded first. -/
theorem codeOccurs_of_mem_errorCodes {i : Instr} {c : Code} (h : c ∈ errorCodes i) : CodeOccurs i c := by
  cases i with
  | rdstat => simp [errorCodes] at h
  | nop =>
    obtain rfl : c = .faulted := by simpa [errorCodes] using h
    exact codeOccurs_faulted nofun
  | ldkey len o =>
    simp only [errorCodes, List.mem_cons, List.not_mem_nil, or_false] at h
    rcases h with rfl | rfl | rfl
    · exact codeOccurs_of_raised (j := .ldkey 1 0) rfl (exec_ldkey_of_badLength (s := State.reset) rfl (by decide))
    · exact codeOccurs_of_raised (j := .ldkey 2 0) rfl
        (exec_ldkey_of_allZero (s := State.reset) rfl (by decide) (by decide) (by simp))
    · exact codeOccurs_faulted nofun
  | lddvd len o =>
    simp only [errorCodes, List.mem_cons, List.not_mem_nil, or_false] at h
    rcases h with rfl | rfl
    · exact codeOccurs_of_raised (j := .lddvd 33 0) rfl (exec_lddvd_of_maxLen_lt (s := State.reset) rfl (by decide))
    · exact codeOccurs_faulted nofun
  | crc =>
    simp only [errorCodes, List.mem_cons, List.not_mem_nil, or_false] at h
    rcases h with rfl | rfl | rfl
    · exact codeOccurs_of_raised rfl (exec_crc_of_keyValid_false (s := State.reset) rfl rfl)
    · exact codeOccurs_of_raised rfl (exec_crc_of_dvdValid_false (s := State.reset.loadKey 2 [true, true]) rfl rfl rfl)
    · exact codeOccurs_faulted nofun
  | rdrem =>
    simp only [errorCodes, List.mem_cons, List.not_mem_nil, or_false] at h
    rcases h with rfl | rfl
    · exact codeOccurs_of_raised rfl (exec_rdrem_of_remValid_false (s := State.reset) rfl rfl)
    · exact codeOccurs_faulted nofun
  | s2i len o =>
    simp only [errorCodes, List.mem_cons, List.not_mem_nil, or_false] at h
    rcases h with rfl | rfl
    · exact codeOccurs_of_raised (j := .s2i 33 0) rfl (exec_s2i_of_maxLen_lt 0 (s := State.reset) rfl (by decide))
    · exact codeOccurs_faulted nofun
  | i2s width o =>
    simp only [errorCodes, List.mem_cons, List.not_mem_nil, or_false] at h
    rcases h with rfl | rfl | rfl
    · exact codeOccurs_of_raised (j := .i2s 33 0) rfl (exec_i2s_of_maxLen_lt (s := State.reset) rfl (by decide))
    · exact codeOccurs_of_raised (j := .i2s 5 0x20) rfl
        (exec_i2s_of_two_pow_le (s := State.reset) rfl (by decide) (by decide))
    · exact codeOccurs_faulted nofun
  | digits len start stop o =>
    simp only [errorCodes, List.mem_cons, List.not_mem_nil, or_false] at h
    rcases h with rfl | rfl | rfl
    · exact codeOccurs_of_raised (j := .digits 33 0 0 0) rfl
        (exec_digits_of_maxLen_lt 0 (s := State.reset) rfl (by decide))
    · exact codeOccurs_of_raised (j := .digits 6 4 3 0) rfl
        (exec_digits_of_badRange 0 (s := State.reset) rfl (by decide) (by decide))
    · exact codeOccurs_faulted nofun

/-! ## Words outside the opcode map -/

/-- R75: a word in no row of the map is no command. -/
theorem decode_ne_ok_of_no_row {w : Word} (h : ∀ row ∈ opcodeTable, w &&& row.mask ≠ row.pattern) (o : Nat) (i : Instr) :
    decode w o ≠ .ok i := by
  intro hd
  obtain ⟨rfl, -⟩ := decode_eq_ok_iff.1 hd
  exact h _ (rowOf_mem i) (encodeWord_and_rowOf_mask i)

/-- Settles O14: a command's codes are those of its checks; a word in no row is illegal, and is refused or raises E_ILLEGAL; the
engine's step is ITERATE, which is silent, or FINISH, which answers OK. -/
theorem answersCarryTheListedCodes : Obligations.AnswersCarryTheListedCodes := by
  refine ⟨rfl, fun i c => codeOccurs_of_mem_errorCodes, exec_answersListed, fun s t w o rest hp hrow h => ?_,
    fun s t h => ?_⟩
  · rw [step_of_presents hp, runCommand_illegal (decode_ne_ok_of_no_row hrow o), Host.Outcome.next.injEq] at h
    subst h
    split
    · exact ⟨⟨.faulted, .none⟩, rfl, .inr rfl, rfl⟩
    · exact ⟨⟨.eIllegal, .none⟩, rfl, .inl rfl, rfl⟩
  · rcases engineStep_cases h with ⟨-, rfl⟩ | ⟨-, rfl⟩
    · exact .inl rfl
    · exact .inr ⟨_, rfl⟩

/-! ## The order of the checks -/

/-- Settles O15: the fault state is checked before the decoder's answer, and each command's failing check is met with the
earlier ones passed and nothing asked of the later ones. -/
theorem checksComeInTheirOrder : Obligations.ChecksComeInTheirOrder := by
  refine ⟨fun s w o rest hp => ⟨fun hf hw => ?_, fun hf hd => ?_⟩, fun s hf => ⟨fun len o => ?_,
    exec_crc_of_keyValid_false hf, exec_crc_of_dvdValid_false hf, fun width o => ?_, fun len start stop o => ?_⟩⟩
  · rw [step_of_presents hp]
    exact runCommand_of_fault_of_ne o hf hw
  · rw [step_of_presents hp, runCommand_illegal hd]
    simp [hf]
  · exact ⟨exec_ldkey_of_badLength hf, exec_ldkey_of_allZero hf⟩
  · exact ⟨exec_i2s_of_maxLen_lt hf, exec_i2s_of_two_pow_le hf⟩
  · exact ⟨exec_digits_of_maxLen_lt o hf, fun hl hr => exec_digits_of_badRange o hf hl (by omega)⟩

end Sys2Proof.Machine
end

section
/-!
PROOFS. REM over the commands (10_state.md R27, R28; 70_reset_and_hazards.md R215): no command writes it.
-/

namespace Sys2Proof.Machine

/-- R34: no command writes REM or REM_VALID. -/
theorem exec_keeps_rem {i : Instr} {s t : State} (h : exec i s = .next t) :
    t.rem = s.rem ∧ t.remValid = s.remValid := by
  rcases exec_cases h with ⟨-, -, rfl⟩ | ⟨-, c, -, -, rfl⟩ | ⟨p, rfl, -⟩ | ⟨len, o, -, -, -, -, -, rfl⟩ |
    ⟨len, o, -, -, -, rfl⟩ | ⟨-, -, -, -, rfl⟩ <;> exact ⟨rfl, rfl⟩

/-- Settles O50: a load is a command, so it keeps REM and REM_VALID, and RDREM answers what it finds there. -/
theorem remainderIsStaleAfterALoad : Obligations.RemainderIsStaleAfterALoad := by
  intro s t len o _ hrv hload hft
  obtain ⟨hrem, hvalid⟩ : t.rem = s.rem ∧ t.remValid = s.remValid := hload.elim exec_keeps_rem exec_keeps_rem
  have hrvt : t.remValid = true := hvalid.trans hrv
  exact ⟨hrem, hrvt, hrem ▸ exec_rdrem_of_remValid hft hrvt⟩

end Sys2Proof.Machine
end

section
/-!
PROOFS. The invariants of 10_state.md R32: every named update of the state keeps them where the machine makes it, so reset meets
them, every step keeps them, and no value of a division overflows (41_divider.md R145, R146).
-/

namespace Sys2Proof.Machine

/-! ## Where the division loop ends -/

/-- R140: where the loop does not go on, the running value is shorter than a divisor that is not 0. -/
theorem bitLength_lt_of_divGuard_false {r p : Nat} (hp : p ≠ 0) (h : divGuard r p = false) : bitLength r < bitLength p := by
  have hlt := bitLength_divLoop_lt hp r
  rwa [divLoop_done h] at hlt

/-! ## Reset and the codes -/

/-- R21, R24: a register filled from a sequence holds 0 on its lanes from the length on. -/
theorem lanesHold_fillLanes (cfg : Config) (q : Seq) (len : Nat) : LanesHold cfg.maxLen (fillLanes cfg q len) len :=
  ⟨length_fillLanes cfg q len, fun i _ hl => by simp [lane_fillLanes, hl.not_gt]⟩

theorem lanesHold_replicate_false (n len : Nat) : LanesHold n (List.replicate n false) len :=
  ⟨List.length_replicate, fun i _ _ => lane_replicate_false n i⟩

/-- R180: the codes that an error can latch are 1 to 8. -/
theorem Code.bits_of_error {c : Code} (hok : c ≠ .ok) (hfaulted : c ≠ .faulted) : 1 ≤ c.bits.toNat ∧ c.bits.toNat ≤ 8 := by
  cases c with
  | ok => exact absurd rfl hok
  | faulted => exact absurd rfl hfaulted
  | _ => decide

/-- Every state whose registers hold their reset values meets the invariants; the host's moves, the responses and the count of
abandoned CRCs are free. -/
theorem inv_resetBlock (s : State) : s.resetBlock.Inv :=
  ⟨⟨lanesHold_replicate_false _ _, nofun, fun _ => ⟨rfl, fun i _ => lane_replicate_false _ i⟩⟩,
    ⟨lanesHold_replicate_false _ _, Nat.zero_le _, fun _ => ⟨rfl, fun i _ => lane_replicate_false _ i⟩⟩,
    nofun, ⟨fun _ => rfl, nofun⟩, ⟨Nat.two_pow_pos _, fun _ => rfl⟩,
    ⟨Nat.two_pow_pos _, Nat.two_pow_pos _, Nat.zero_le _⟩⟩

/-- Settles O2: the reset state is what reset leaves of itself. -/
theorem resetStateMeetsTheInvariants : Obligations.ResetStateMeetsTheInvariants := fun cfg =>
  inv_resetBlock (State.resetOf cfg)

/-! ## The updates that keep the invariants -/

section Updates

variable {s : State}

/-- The host's moves are in no invariant. -/
theorem inv_withHost (h : s.Inv) (moves : List HostMove) : (s.withHost moves).Inv := h

/-- The responses are in no invariant. -/
theorem inv_respond (h : s.Inv) (c : Code) (p : Payload) : (s.respond c p).Inv := h

/-- R184, R32 items 4 and 5: an error is taken with no CRC in flight. -/
theorem inv_latchError (h : s.Inv) (hb : s.busy = false) {c : Code} (hok : c ≠ .ok) (hfaulted : c ≠ .faulted) :
    (s.latchError c).Inv := by
  obtain ⟨hkey, hdvd, -, -, hrem, hwork⟩ := h
  refine ⟨hkey, hdvd, fun hbusy => ?_, ⟨nofun, fun _ => Code.bits_of_error hok hfaulted⟩, hrem, hwork⟩
  simp [hb] at hbusy

/-- R131, R32 items 1 to 3: LDKEY's checks are what a valid key asks. -/
theorem inv_loadKey (h : s.Inv) {len : Byte} {q : Seq} (h2 : 2 ≤ len.toNat) (hl : len.toNat ≤ s.cfg.maxLen)
    (hq : toInteger q len.toNat ≠ 0) : (s.loadKey len q).Inv := by
  obtain ⟨-, hdvd, hbusy, hfault, hrem, hwork⟩ := h
  have hvalue : toInteger (fillLanes s.cfg q len.toNat) len.toNat ≠ 0 := by rwa [toInteger_fillLanes hl]
  exact ⟨⟨lanesHold_fillLanes _ _ _, fun _ => ⟨h2, hl, hvalue⟩, nofun⟩, hdvd, hbusy, hfault, hrem, hwork⟩

/-- R132, R32 items 1 and 3. -/
theorem inv_loadDvd (h : s.Inv) {len : Byte} (q : Seq) (hl : len.toNat ≤ s.cfg.maxLen) : (s.loadDvd len q).Inv := by
  obtain ⟨hkey, -, hbusy, hfault, hrem, hwork⟩ := h
  exact ⟨hkey, ⟨lanesHold_fillLanes _ _ _, hl, nofun⟩, hbusy, hfault, hrem, hwork⟩

/-- R101, R8: the value of a sequence no longer than MAX_LEN fits a register of MAX_LEN bits. -/
theorem toInteger_lt_two_pow_maxLen {cfg : Config} {len : Nat} (hl : len ≤ cfg.maxLen) (q : Seq) :
    toInteger q len < 2 ^ cfg.maxLen :=
  (toInteger_lt q len).trans_le (Nat.pow_le_pow_right two_pos hl)

/-- R133, R32 item 4: a valid key and a dividend give the engine a divisor and a dividend within its registers. -/
theorem inv_acceptCrc (h : s.Inv) (hf : s.fault = false) (hk : s.keyValid = true) : s.acceptCrc.Inv := by
  obtain ⟨hkey, hdvd, -, hfault, hrem, -⟩ := h
  obtain ⟨h2, hkl, hkv⟩ := hkey.2.1 hk
  have hdl : s.dvdLen.toNat ≤ s.cfg.maxLen := hdvd.2.1
  have hwr : toInteger s.dvdSeq s.dvdLen.toNat < 2 ^ s.cfg.maxLen := toInteger_lt_two_pow_maxLen hdl _
  exact ⟨hkey, hdvd, fun _ => ⟨hkv, h2, hkl, (bitLength_le_iff _ _).2 (toInteger_lt _ _), (bitLength_le_iff _ _).2 hwr, hf⟩,
    hfault, hrem, ⟨hwr, toInteger_lt_two_pow_maxLen hkl _, hkl⟩⟩

/-- R140, R144: an iteration makes WR shorter, so it stays within its register. -/
theorem inv_iterate (h : s.Inv) (hg : divGuard s.wr s.wp = true) : s.iterate.Inv := by
  obtain ⟨hkey, hdvd, hbusy, hfault, hrem, hwr, hwpk⟩ := h
  have hlen : bitLength (divStep s.wr s.wp) ≤ s.cfg.maxLen :=
    (bitLength_divStep_lt hg).le.trans ((bitLength_le_iff _ _).2 hwr)
  refine ⟨hkey, hdvd, fun hb => ?_, hfault, hrem, (bitLength_le_iff _ _).1 hlen, hwpk⟩
  obtain ⟨hp, h2, hl, hpl, -, hf⟩ := hbusy hb
  exact ⟨hp, h2, hl, hpl, hlen, hf⟩

/-- R141, R32 item 6: the mask of FINISH keeps REM within its register. -/
theorem inv_finish (h : s.Inv) : s.finish.Inv := by
  obtain ⟨hkey, hdvd, -, hfault, -, hwork⟩ := h
  have hwk : s.wk.toNat - 1 ≤ s.cfg.maxLen - 1 := Nat.sub_le_sub_right hwork.2.2 1
  have hrem : s.finalRemainder < 2 ^ (s.cfg.maxLen - 1) :=
    (Nat.mod_lt _ (Nat.two_pow_pos _)).trans_le (Nat.pow_le_pow_right two_pos hwk)
  exact ⟨hkey, hdvd, nofun, hfault, ⟨hrem, nofun⟩, hwork⟩

end Updates

/-! ## The steps that keep the invariants -/

theorem exec_keeps_inv {i : Instr} {s t : State} (h : exec i s = .next t) (hi : s.Inv) (hb : s.busy = false) : t.Inv := by
  rcases exec_cases h with ⟨-, -, rfl⟩ | ⟨-, c, hok, hfaulted, rfl⟩ | ⟨p, rfl, -⟩ | ⟨len, o, -, -, h2, hl, hv, rfl⟩ |
    ⟨len, o, -, -, hl, rfl⟩ | ⟨-, hf, hk, -, rfl⟩
  · exact inv_respond hi _ _
  · exact inv_respond (inv_latchError hi hb hok hfaulted) _ _
  · exact inv_respond hi _ _
  · exact inv_respond (inv_loadKey hi h2 hl hv) _ _
  · exact inv_respond (inv_loadDvd hi _ hl) _ _
  · exact inv_acceptCrc hi hf hk

theorem runCommand_keeps_inv {w : Word} {o : Nat} {s t : State} (h : runCommand w o s = .next t) (hi : s.Inv)
    (hb : s.busy = false) : t.Inv := by
  rcases runCommand_cases h with ⟨i, -, hx⟩ | ⟨e, -, -, rfl⟩ | ⟨e, -, -, rfl⟩
  · exact exec_keeps_inv hx hi hb
  · exact inv_respond (inv_latchError hi hb (by decide) (by decide)) _ _
  · exact inv_respond hi _ _

theorem engineStep_keeps_inv {s t : State} (h : engineStep s = .next t) (hi : s.Inv) : t.Inv := by
  rcases engineStep_cases h with ⟨hg, rfl⟩ | ⟨-, rfl⟩
  · exact inv_iterate hi hg
  · exact inv_finish hi

theorem step_keeps_inv {s t : State} (h : step s = .next t) (hi : s.Inv) : t.Inv := by
  rcases step_cases h with ⟨w, o, rest, hb, -, -, hx⟩ | ⟨-, -, hx⟩ | ⟨rest, -, rfl⟩ | ⟨-, -, -, rfl⟩
  · exact runCommand_keeps_inv hx (inv_withHost hi rest) hb
  · exact engineStep_keeps_inv hx (inv_withHost hi _)
  · exact inv_resetBlock _
  · exact hi

/-! ## MAX_LEN -/

/-- R7, R220: a command writes neither MAX_LEN nor the host's further moves, and abandons no CRC. -/
theorem exec_keeps_frame {i : Instr} {s t : State} (h : exec i s = .next t) :
    t.cfg = s.cfg ∧ t.host = s.host ∧ t.abandoned = s.abandoned := by
  rcases exec_cases h with ⟨-, -, rfl⟩ | ⟨-, c, -, -, rfl⟩ | ⟨p, rfl, -⟩ | ⟨len, o, -, -, -, -, -, rfl⟩ |
    ⟨len, o, -, -, -, rfl⟩ | ⟨-, -, -, -, rfl⟩ <;> exact ⟨rfl, rfl, rfl⟩

theorem runCommand_keeps_frame {w : Word} {o : Nat} {s t : State} (h : runCommand w o s = .next t) :
    t.cfg = s.cfg ∧ t.host = s.host ∧ t.abandoned = s.abandoned := by
  rcases runCommand_cases h with ⟨i, -, hx⟩ | ⟨e, -, -, rfl⟩ | ⟨e, -, -, rfl⟩
  · exact exec_keeps_frame hx
  · exact ⟨rfl, rfl, rfl⟩
  · exact ⟨rfl, rfl, rfl⟩

theorem step_keeps_cfg {s t : State} (h : step s = .next t) : t.cfg = s.cfg := by
  rcases step_cases h with ⟨w, o, rest, -, -, -, hx⟩ | ⟨-, -, hx⟩ | ⟨rest, -, rfl⟩ | ⟨-, -, -, rfl⟩
  · exact (runCommand_keeps_frame hx).1
  · rw [engineStep_frame hx]
    rfl
  · rfl
  · rfl

/-- Settles O3: by the agent that moved, each of its updates keeping the invariants. -/
theorem stepKeepsTheInvariants : Obligations.StepKeepsTheInvariants := fun _ _ hi h =>
  ⟨step_keeps_inv h hi, step_keeps_cfg h⟩

/-! ## The division within its registers -/

theorem iterateEnabled_iff (s : State) :
    s.iterateEnabled = true ↔ s.busy = true ∧ s.wr ≠ 0 ∧ s.wp ≠ 0 ∧ bitLength s.wp ≤ bitLength s.wr := by
  rw [State.iterateEnabled, Bool.and_eq_true, divGuard_iff]

theorem finishEnabled_iff (s : State) : s.finishEnabled = true ↔ s.busy = true ∧ divGuard s.wr s.wp = false := by
  simp [State.finishEnabled]

/-- Settles O30: the shifted divisor is as long as WR, an iteration makes WR shorter, and where the loop ends WR is shorter than
a divisor of at most WK bits. -/
theorem nothingOverflowsAndTheMaskIsIdentity : Obligations.NothingOverflowsAndTheMaskIsIdentity := by
  intro s ⟨_, _, hbusy, _, _, hwork⟩ hb
  obtain ⟨hp, h2, hwk, hpl, hrl, -⟩ := hbusy hb
  refine ⟨fun h => ?_, fun h => ?_⟩
  · obtain ⟨-, hg⟩ := (iterateEnabled_iff s).1 h
    refine ⟨(bitLength_le_iff _ _).1 ?_, (bitLength_le_iff _ _).1 ?_⟩
    · rw [bitLength_shiftLeft hp]
      omega
    · exact (bitLength_divStep_lt ((divGuard_iff _ _).2 hg)).le.trans hrl
  · have hlt := bitLength_lt_of_divGuard_false hp ((finishEnabled_iff s).1 h).2
    have hfits : s.wr < 2 ^ (s.wk.toNat - 1) := (bitLength_le_iff _ _).1 (by omega)
    exact ⟨Nat.mod_eq_of_lt hfits, hfits, (bitLength_le_iff _ _).1 (by omega)⟩

end Sys2Proof.Machine
end

section
/-!
PROOFS. The encoder against the decoder (30_encoding.md R70, R75, R79, R83), the taking of a presented word (R70, R82), and the
assembler's lines (R84).
-/

namespace Sys2Proof.Machine

open Sys2Proof.Says

/-! ## Encoding and decoding -/

theorem carriesOperand_encodeOperand (i : Instr) : carriesOperand (encodeOperand i) i := by
  cases i with
  | nop => trivial
  | crc => trivial
  | rdrem => trivial
  | rdstat => trivial
  | _ => rfl

/-- R78: a command carries an operand where it reads one, and the four that ignore it carry any. -/
theorem ignores_or_encodeOperand_eq {o : Nat} {i : Instr} (h : carriesOperand o i) :
    i = .nop ∨ i = .crc ∨ i = .rdrem ∨ i = .rdstat ∨ encodeOperand i = o := by
  cases i with
  | nop => exact .inl rfl
  | crc => exact .inr (.inl rfl)
  | rdrem => exact .inr (.inr (.inl rfl))
  | rdstat => exact .inr (.inr (.inr (.inl rfl)))
  | _ => exact .inr (.inr (.inr (.inr h)))

/-- Settles O4: a word decodes to a command exactly when it is that command's word with an operand that the command carries. -/
theorem encodeAndDecodeAgree : Obligations.EncodeAndDecodeAgree := by
  refine ⟨fun i => decode_encodeWord (carriesOperand_encodeOperand i), fun w o i h => ?_⟩
  obtain ⟨rfl, ho⟩ := decode_eq_ok_iff.1 h
  exact ⟨rfl, ignores_or_encodeOperand_eq ho⟩

/-- Settles O8: each word is its command's encoding. -/
theorem writtenWordsDecode : Obligations.WrittenWordsDecode :=
  ⟨decode_encodeWord (i := .ldkey 6 0x2B) rfl, decode_encodeWord (i := .lddvd 15 0x2C5) rfl,
    decode_encodeWord (i := .crc) trivial, decode_encodeWord (i := .rdstat) trivial,
    decode_encodeWord (i := .i2s 5 0xE) rfl, decode_encodeWord (i := .digits 6 1 4 0x2B) rfl⟩

/-! ## Taking a presented word -/

/-- Settles O9: a presented word is taken, and a taken word that decodes runs its command. -/
theorem stepRunsTheDecodedCommand : Obligations.StepRunsTheDecodedCommand := by
  intro s w o rest i hp hd
  rw [step_of_presents hp, runCommand, hd]

/-- Settles O10: words that decode to one command are its one word, and a word in no row of the map is no command. -/
theorem illegalWordsRaise : Obligations.IllegalWordsRaise := by
  refine ⟨fun w w' o i h h' => ?_, fun s w o rest hp hrow => ?_⟩
  · exact (decode_eq_ok_iff.1 h).1.trans (decode_eq_ok_iff.1 h').1.symm
  · rw [step_of_presents hp, runCommand_illegal (decode_ne_ok_of_no_row hrow o)]
    exact ⟨fun hf => by simp [hf], fun hf => by simp [hf]⟩

/-! ## The assembler's lines -/

theorem asmField_toNat (b : Byte) : asmField b.toNat = .ok b := by
  rw [asmField, if_pos b.isLt, BitVec.ofNat_toNat, BitVec.setWidth_eq]

theorem testBit_operandOf (q : Seq) (j : Nat) : (operandOf q).testBit j = lane q j := by
  induction q generalizing j with
  | nil => simp [operandOf, lane]
  | cons b q ih =>
    cases j with
    | zero => cases b <;> simp [operandOf, lane]
    | succ j =>
      have half : (b.toNat + 2 * operandOf q) / 2 = operandOf q := by have := Bool.toNat_lt b; omega
      rw [operandOf, Nat.testBit_add_one, half, ih]
      rfl

/-- R84, R76: a string of the line's length assembles to the operand that carries it. -/
theorem asmSequence_of_length_eq (cfg : Config) {len : Nat} {q : Seq} (h : q.length = len) :
    asmSequence cfg len q = .ok (operandOf q % 2 ^ cfg.maxLen) := if_pos h

theorem asmSequence_of_length_ne (cfg : Config) {len : Nat} {q : Seq} (h : q.length ≠ len) :
    asmSequence cfg len q = .error .stringLengthNotL := if_neg h

/-- R84: a line of a field and a string of that length is the move that sends its command. -/
theorem assemble_field_sequence (cfg : Config) {len : Byte} {q : Seq} (h : q.length = len.toNat)
    (command : Byte → Nat → Instr) :
    (do return moveOf (command (← asmField len.toNat) (← asmSequence cfg len.toNat q)) : Except AsmError HostMove) =
      .ok (moveOf (command len (operandOf q % 2 ^ cfg.maxLen))) := by
  rw [asmField_toNat, asmSequence_of_length_eq cfg h]
  rfl

/-- A line whose string fails assembles to no move, whatever becomes of its field. -/
theorem bind_ne_ok_of_ne_ok {α β ε : Type} (x : Except ε α) {f : α → Except ε β} {m : β} (h : ∀ a, f a ≠ .ok m) :
    (x >>= f) ≠ .ok m := by
  cases x with
  | ok a => exact h a
  | error e => exact nofun

/-- Settles O52: a field of a line is the byte itself, a string's operand has its digits as bits, and a string of another length
fails the line. -/
theorem linesAssembleToTheirCommands : Obligations.LinesAssembleToTheirCommands := by
  intro cfg
  refine ⟨⟨rfl, rfl, rfl, rfl, rfl⟩, fun len q hq => ?_, fun width v hv => ?_, fun len start stop q m hq => ?_⟩
  · refine ⟨operandOf q % 2 ^ cfg.maxLen, fun j => ?_, assemble_field_sequence cfg hq .ldkey,
      assemble_field_sequence cfg hq .lddvd, assemble_field_sequence cfg hq .s2i, fun start stop => ?_⟩
    · rw [Nat.testBit_mod_two_pow, testBit_operandOf]
    · rw [assemble, asmField_toNat, asmField_toNat, asmField_toNat, asmSequence_of_length_eq cfg hq]
      rfl
  · rw [assemble, asmField_toNat, asmInteger, if_pos hv]
    rfl
  · have fails : ∀ {f : Nat → Except AsmError HostMove}, (asmSequence cfg len q >>= f) ≠ .ok m := by
      intro f
      rw [asmSequence_of_length_ne cfg hq]
      exact nofun
    exact ⟨bind_ne_ok_of_ne_ok _ fun _ => fails, bind_ne_ok_of_ne_ok _ fun _ => fails, bind_ne_ok_of_ne_ok _ fun _ => fails,
      bind_ne_ok_of_ne_ok _ fun _ => bind_ne_ok_of_ne_ok _ fun _ => bind_ne_ok_of_ne_ok _ fun _ => fails⟩

end Sys2Proof.Machine
end

section
/-!
PROOFS. The codec as mathematics (40_codec.md R107, R108), DIGITS (R106), and the bit length (00_scope.md R11).
-/

namespace Sys2Proof.Machine

open Sys2Proof.Says

/-! ## The bit length -/

/-- Settles O31: the top bit is set, the bits above it are not, and its position is the binary logarithm. -/
theorem bitLengthIsTheHighestBitPlusOne : Obligations.BitLengthIsTheHighestBitPlusOne := by
  refine ⟨bitLength_zero, fun x hx => ⟨testBit_bitLength_pred hx, fun i => testBit_of_bitLength_le, ?_⟩⟩
  rw [bitLength, if_neg hx, Nat.log2_eq_log_two]

/-! ## `expand` and `toInteger` -/

/-- R107: expanding the value of a sequence gives the sequence back. -/
theorem expand_toInteger {width : Nat} {s : Seq} (h : s.length = width) : expand (toInteger s width) width = s := by
  refine seq_ext (by simp [h]) fun i hi => ?_
  rw [length_expand] at hi
  simp [lane_expand, testBit_toInteger, hi, show width - 1 - i < width by omega,
    show width - 1 - (width - 1 - i) = i by omega]

/-- R107: a value that fits the width is the value of its expansion. -/
theorem toInteger_expand {width v : Nat} (h : v < 2 ^ width) : toInteger (expand v width) width = v := by
  refine Nat.eq_of_testBit_eq fun i => ?_
  rw [testBit_toInteger_expand]
  by_cases hi : i < width
  · simp [hi]
  · have hv : v < 2 ^ i := h.trans_le (Nat.pow_le_pow_right two_pos (by omega))
    simp [hi, Nat.testBit_lt_two_pow hv]

/-- Settles O40: `toInteger` is injective since `expand` undoes it. -/
theorem codecRoundTrip : Obligations.CodecRoundTrip := by
  refine ⟨fun _ _ => expand_toInteger, fun _ _ => toInteger_expand, fun width s t hs ht h => ?_⟩
  rw [← expand_toInteger hs, h, expand_toInteger ht]

/-! ## The digits as characters -/

/-- R103: a digit's character is 0x30 plus the digit. -/
theorem digitChar_eq_add (b : Bool) : digitChar b = 0x30 + (BitVec.ofBool b).setWidth 8 := by
  cases b <;> rfl

theorem getElem?_toDigitString {s : Seq} {start stop k : Nat} (h : k < stop - start) :
    (toDigitString s start stop)[k]? = some (digitChar (lane s (start + k))) := by
  simp [toDigitString, List.getElem?_range h]

/-- R108: adjoining ranges concatenate: the second range continues the first one's indexes. -/
theorem toDigitString_append (s : Seq) {a b c : Nat} (hab : a ≤ b) (hbc : b ≤ c) :
    toDigitString s a b ++ toDigitString s b c = toDigitString s a c := by
  rw [toDigitString, toDigitString, toDigitString, show c - a = (b - a) + (c - b) by omega, List.range_add,
    List.map_append, List.map_map]
  refine congrArg _ (List.map_congr_left fun k _ => ?_)
  simp [show a + (b - a + k) = b + k by omega]

/-- Settles O41: element by element, and by joining the ranges of indexes. -/
theorem digitRenderingLaw : Obligations.DigitRenderingLaw := by
  refine fun s => ⟨by simp [toDigitString], fun k hk => ?_, fun a b c hab hbc _ => toDigitString_append s hab hbc⟩
  rw [getElem?_toDigitString (by omega), Nat.zero_add, digitChar_eq_add]

/-! ## DIGITS -/

/-- R103, R76: the characters of the digits that an operand carries. -/
theorem toDigitString_seqOf {opnd len start stop : Nat} (h : stop ≤ len) :
    toDigitString (seqOf opnd len) start stop =
      (List.range (stop - start)).map fun k => if opnd.testBit (start + k) then 0x31 else 0x30 := by
  refine List.map_congr_left fun k hk => ?_
  have hlt : start + k < len := by have := List.mem_range.1 hk; omega
  simp [lane_seqOf, hlt, digitChar]

theorem exec_digits_of_inRange {s : State} {len start stop : Byte} (o : Nat) (hf : s.fault = false)
    (hl : len.toNat ≤ s.cfg.maxLen) (hr : start.toNat ≤ stop.toNat) (hs : stop.toNat ≤ len.toNat) :
    exec (.digits len start stop o) s = .next (answered s .ok
      (.chars (toDigitString (seqOf o len.toNat) start.toNat stop.toNat))) := by
  rw [exec, execDigits, unlessFaulted_clear hf, if_neg hl.not_gt, if_neg (not_not.2 ⟨hr, hs⟩), respondOk_eq, answered]

/-- R74: DIGITS uses all three fields, so none of them can make its word illegal. -/
theorem encoded_digits : encoded 0x09 true true true fun w o => .digits (fieldA w) (fieldB w) (fieldC w) o :=
  encoded_of_decode (fun _ o hop _ => decode_of_opDigits o hop) fun _ _ _ hz => absurd ⟨nofun, nofun, nofun⟩ hz

/-- Settles O20: one clause per outcome of DIGITS's two checks. -/
theorem digitsAnswersTheCharacters : Obligations.DigitsAnswersTheCharacters := by
  refine ⟨encoded_digits, fun _ _ _ _ => refusedWhileFaulted_of_ne_rdstat (by simp), fun s len start stop o hf =>
    ⟨exec_digits_of_maxLen_lt o hf, exec_digits_of_badRange o hf, fun hl hr hs => ?_⟩⟩
  rw [exec_digits_of_inRange o hf hl hr hs, toDigitString_seqOf hs]

end Sys2Proof.Machine
end

section
/-!
PROOFS. What each command writes and reads (10_state.md R34, 20_memory.md R55): the frames come from the cases of `exec`, the
reads from following each command's checks in two states at once.
-/

namespace Sys2Proof.Machine

open Sys2Proof.Says

/-! ## What a command writes -/

section Writes

variable {i : Instr} {s t : State}

/-- R34: LDKEY alone writes KEY. -/
theorem exec_keeps_key (h : exec i s = .next t) (hi : writesKey i = false) :
    t.keySeq = s.keySeq ∧ t.keyLen = s.keyLen ∧ t.keyValid = s.keyValid := by
  rcases exec_cases h with ⟨-, -, rfl⟩ | ⟨-, c, -, -, rfl⟩ | ⟨p, rfl, -⟩ | ⟨len, o, rfl, -⟩ | ⟨len, o, -, -, -, rfl⟩ |
    ⟨-, -, -, -, rfl⟩
  case inr.inr.inr.inl => exact absurd hi nofun
  all_goals exact ⟨rfl, rfl, rfl⟩

/-- R34: LDDVD alone writes DVD. -/
theorem exec_keeps_dvd (h : exec i s = .next t) (hi : writesDvd i = false) :
    t.dvdSeq = s.dvdSeq ∧ t.dvdLen = s.dvdLen ∧ t.dvdValid = s.dvdValid := by
  rcases exec_cases h with ⟨-, -, rfl⟩ | ⟨-, c, -, -, rfl⟩ | ⟨p, rfl, -⟩ | ⟨len, o, -, -, -, -, -, rfl⟩ | ⟨len, o, rfl, -⟩ |
    ⟨-, -, -, -, rfl⟩
  case inr.inr.inr.inr.inl => exact absurd hi nofun
  all_goals exact ⟨rfl, rfl, rfl⟩

/-- R34: CRC alone writes the engine's registers. -/
theorem exec_keeps_engine (h : exec i s = .next t) (hi : i ≠ .crc) :
    t.busy = s.busy ∧ t.wr = s.wr ∧ t.wp = s.wp ∧ t.wk = s.wk := by
  rcases exec_cases h with ⟨-, -, rfl⟩ | ⟨-, c, -, -, rfl⟩ | ⟨p, rfl, -⟩ | ⟨len, o, -, -, -, -, -, rfl⟩ |
    ⟨len, o, -, -, -, rfl⟩ | ⟨hcrc, -⟩
  case inr.inr.inr.inr.inr => exact absurd hcrc hi
  all_goals exact ⟨rfl, rfl, rfl, rfl⟩

/-- R34, R184: a command writes FAULT and ERR_CAUSE only by an error, and an error writes nothing else. -/
theorem exec_keeps_fault_or_raises (h : exec i s = .next t) :
    (t.fault = s.fault ∧ t.errCause = s.errCause) ∨
      ∃ c : Code, c ≠ .ok ∧ t = { s with fault := true, errCause := c.bits, responses := t.responses } := by
  rcases exec_cases h with ⟨-, -, rfl⟩ | ⟨-, c, hok, -, rfl⟩ | ⟨p, rfl, -⟩ | ⟨len, o, -, -, -, -, -, rfl⟩ |
    ⟨len, o, -, -, -, rfl⟩ | ⟨-, -, -, -, rfl⟩
  case inr.inl => exact .inr ⟨c, hok, rfl⟩
  all_goals exact .inl ⟨rfl, rfl⟩

end Writes

/-- R140: where the guard holds the engine's step is ITERATE. -/
theorem engineStep_of_guard {s : State} (hg : divGuard s.wr s.wp = true) : engineStep s = .next s.iterate := by
  rw [engineStep, if_pos hg]

/-- R141: where the guard does not hold the engine's step is FINISH. -/
theorem engineStep_of_done {s : State} (hg : divGuard s.wr s.wp = false) : engineStep s = .next s.finish := by
  rw [engineStep, if_neg (by simp [hg])]

/-- Settles O42: a column at a time, every command answering a next state. -/
theorem commandsWriteOnlyTheirRegisters : Obligations.CommandsWriteOnlyTheirRegisters := by
  refine ⟨fun i s => ?_, fun s => ?_⟩
  · obtain ⟨t, ht⟩ := exec_next i s
    obtain ⟨hcfg, hhost, -⟩ := exec_keeps_frame ht
    exact ⟨t, ht, hcfg, hhost, exec_keeps_key ht, exec_keeps_dvd ht, exec_keeps_rem ht, exec_keeps_engine ht,
      exec_keeps_fault_or_raises ht⟩
  · cases hg : divGuard s.wr s.wp with
    | true => exact ⟨_, engineStep_of_guard hg, fun _ => rfl, nofun⟩
    | false => exact ⟨_, engineStep_of_done hg, nofun, fun _ => rfl⟩

/-! ## What a command reads -/

/-- From `s` to `t` and from `s'` to `t'` the same is answered, and each register is left as it is in both or takes the same
value in both. -/
def WritesAlike (s s' t t' : State) : Prop :=
  (∃ l, t.responses = s.responses ++ l ∧ t'.responses = s'.responses ++ l) ∧
  t.fault = t'.fault ∧
  ((t.errCause = s.errCause ∧ t'.errCause = s'.errCause) ∨ t.errCause = t'.errCause) ∧
  (((t.keySeq, t.keyLen, t.keyValid) = (s.keySeq, s.keyLen, s.keyValid) ∧
      (t'.keySeq, t'.keyLen, t'.keyValid) = (s'.keySeq, s'.keyLen, s'.keyValid)) ∨
    (t.keySeq, t.keyLen, t.keyValid) = (t'.keySeq, t'.keyLen, t'.keyValid)) ∧
  (((t.dvdSeq, t.dvdLen, t.dvdValid) = (s.dvdSeq, s.dvdLen, s.dvdValid) ∧
      (t'.dvdSeq, t'.dvdLen, t'.dvdValid) = (s'.dvdSeq, s'.dvdLen, s'.dvdValid)) ∨
    (t.dvdSeq, t.dvdLen, t.dvdValid) = (t'.dvdSeq, t'.dvdLen, t'.dvdValid)) ∧
  (((t.busy, t.wr, t.wp, t.wk) = (s.busy, s.wr, s.wp, s.wk) ∧
      (t'.busy, t'.wr, t'.wp, t'.wk) = (s'.busy, s'.wr, s'.wp, s'.wk)) ∨
    (t.busy, t.wr, t.wp, t.wk) = (t'.busy, t'.wr, t'.wp, t'.wk))

/-- The next states of two outcomes, one from `s` and one from `s'`, are written alike. -/
def OutcomesAlike (s s' : State) (out out' : Host.Outcome State Fault Refusal) : Prop :=
  ∀ t t', out = .next t → out' = .next t' → WritesAlike s s' t t'

section Reads

variable {s s' : State}

theorem outcomesAlike_next {t t' : State} (h : WritesAlike s s' t t') : OutcomesAlike s s' (.next t) (.next t') := by
  rintro _ _ ⟨⟩ ⟨⟩
  exact h

theorem outcomesAlike_respondOk {p p' : Payload} (hf : s.fault = s'.fault) (hp : p = p') :
    OutcomesAlike s s' (respondOk p s) (respondOk p' s') := by
  subst hp
  exact outcomesAlike_next ⟨⟨_, rfl, rfl⟩, hf, .inl ⟨rfl, rfl⟩, .inl ⟨rfl, rfl⟩, .inl ⟨rfl, rfl⟩, .inl ⟨rfl, rfl⟩⟩

/-- R131: a loaded key is the same for one MAX_LEN. -/
theorem outcomesAlike_loadKey (hc : s.cfg = s'.cfg) (hf : s.fault = s'.fault) (len : Byte) (q : Seq) :
    OutcomesAlike s s' (respondOk .none (s.loadKey len q)) (respondOk .none (s'.loadKey len q)) :=
  outcomesAlike_next ⟨⟨_, rfl, rfl⟩, hf, .inl ⟨rfl, rfl⟩, .inr (by simp [hc]), .inl ⟨rfl, rfl⟩, .inl ⟨rfl, rfl⟩⟩

/-- R132: a loaded dividend is the same for one MAX_LEN. -/
theorem outcomesAlike_loadDvd (hc : s.cfg = s'.cfg) (hf : s.fault = s'.fault) (len : Byte) (q : Seq) :
    OutcomesAlike s s' (respondOk .none (s.loadDvd len q)) (respondOk .none (s'.loadDvd len q)) :=
  outcomesAlike_next ⟨⟨_, rfl, rfl⟩, hf, .inl ⟨rfl, rfl⟩, .inl ⟨rfl, rfl⟩, .inr (by simp [hc]), .inl ⟨rfl, rfl⟩⟩

/-- R133: the engine's copies are those of the operands' values. -/
theorem outcomesAlike_acceptCrc (hf : s.fault = s'.fault) (hks : s.keySeq = s'.keySeq) (hkl : s.keyLen = s'.keyLen)
    (hds : s.dvdSeq = s'.dvdSeq) (hdl : s.dvdLen = s'.dvdLen) :
    OutcomesAlike s s' (.next s.acceptCrc) (.next s'.acceptCrc) :=
  outcomesAlike_next ⟨⟨[], by simp, by simp⟩, hf, .inl ⟨rfl, rfl⟩, .inl ⟨rfl, rfl⟩, .inl ⟨rfl, rfl⟩,
    .inr (by simp [hks, hkl, hds, hdl])⟩

/-- R183: a check with the same answer in both states. -/
theorem outcomesAlike_check {c : Code} {b b' : Prop} [Decidable b] [Decidable b']
    {body body' : Host.Outcome State Fault Refusal} (hb : b ↔ b') (hbody : OutcomesAlike s s' body body') :
    OutcomesAlike s s' (if b then raiseError c s else body) (if b' then raiseError c s' else body') := by
  by_cases h : b
  · rw [if_pos h, if_pos (hb.1 h)]
    exact outcomesAlike_next ⟨⟨_, rfl, rfl⟩, rfl, .inr rfl, .inl ⟨rfl, rfl⟩, .inl ⟨rfl, rfl⟩, .inl ⟨rfl, rfl⟩⟩
  · rwa [if_neg h, if_neg (hb.not.1 h)]

/-- R182: the fault-state check has the same answer where FAULT is the same. -/
theorem outcomesAlike_unlessFaulted {body body' : Host.Outcome State Fault Refusal} (hf : s.fault = s'.fault)
    (hbody : OutcomesAlike s s' body body') : OutcomesAlike s s' (unlessFaulted s body) (unlessFaulted s' body') := by
  cases h : s.fault with
  | true =>
    rw [unlessFaulted_faulted h, unlessFaulted_faulted (hf ▸ h)]
    exact outcomesAlike_next ⟨⟨_, rfl, rfl⟩, hf, .inl ⟨rfl, rfl⟩, .inl ⟨rfl, rfl⟩, .inl ⟨rfl, rfl⟩, .inl ⟨rfl, rfl⟩⟩
  | false => rwa [unlessFaulted_clear h, unlessFaulted_clear (hf ▸ h)]

/-- R34, the reads, command by command: each check and each answer looks at the registers of the command's column only. -/
theorem exec_outcomesAlike {i : Instr} (h : readsAgree i s s') : OutcomesAlike s s' (exec i s) (exec i s') := by
  obtain ⟨hc, hf, hreads⟩ := h
  cases i with
  | nop => exact outcomesAlike_unlessFaulted hf (outcomesAlike_respondOk hf rfl)
  | rdstat =>
    obtain ⟨hkl, hkv, hdl, hdv, hrv, he⟩ := hreads
    exact outcomesAlike_respondOk hf (by simp [statusWord, hf, hkl, hkv, hdl, hdv, hrv, he])
  | rdrem =>
    obtain ⟨hr, hrv⟩ := hreads
    exact outcomesAlike_unlessFaulted hf <| outcomesAlike_check (by rw [hrv]) <| outcomesAlike_respondOk hf (by rw [hr])
  | crc =>
    obtain ⟨hks, hkl, hkv, hds, hdl, hdv⟩ := hreads
    exact outcomesAlike_unlessFaulted hf <| outcomesAlike_check (by rw [hkv]) <| outcomesAlike_check (by rw [hdv]) <|
      outcomesAlike_acceptCrc hf hks hkl hds hdl
  | ldkey len o =>
    exact outcomesAlike_unlessFaulted hf <| outcomesAlike_check (by rw [hc]) <| outcomesAlike_check Iff.rfl <|
      outcomesAlike_loadKey hc hf _ _
  | lddvd len o =>
    exact outcomesAlike_unlessFaulted hf <| outcomesAlike_check (by rw [hc]) <| outcomesAlike_loadDvd hc hf _ _
  | s2i len o =>
    exact outcomesAlike_unlessFaulted hf <| outcomesAlike_check (by rw [hc]) <| outcomesAlike_respondOk hf rfl
  | i2s width o =>
    exact outcomesAlike_unlessFaulted hf <| outcomesAlike_check (by rw [hc]) <| outcomesAlike_check (by rw [hc]) <|
      outcomesAlike_respondOk hf (by rw [hc])
  | digits len start stop o =>
    exact outcomesAlike_unlessFaulted hf <| outcomesAlike_check (by rw [hc]) <| outcomesAlike_check Iff.rfl <|
      outcomesAlike_respondOk hf rfl

end Reads

/-- Settles O43: two states that agree on what the command reads lead its checks the same way. -/
theorem commandsReadOnlyTheirRegisters : Obligations.CommandsReadOnlyTheirRegisters := fun _ _ _ _ _ hreads h h' =>
  exec_outcomesAlike hreads _ _ h h'

/-! ## The reads -/

/-- R55: a command that only reads, and raises no error, answers and does nothing else. -/
theorem exec_answers_of_readsOnly {i : Instr} {s t : State} (hi : readsOnly i = true) (h : exec i s = .next t)
    (hf : t.fault = s.fault) : ∃ r : Response, t = answered s r.code r.payload := by
  rcases exec_cases h with ⟨-, -, rfl⟩ | ⟨hclear, c, -, -, rfl⟩ | ⟨p, rfl, -⟩ | ⟨len, o, rfl, -⟩ | ⟨len, o, rfl, -⟩ | ⟨rfl, -⟩
  · exact ⟨⟨.faulted, .none⟩, rfl⟩
  · simp [hclear] at hf
  · exact ⟨⟨.ok, p⟩, rfl⟩
  · exact absurd hi nofun
  · exact absurd hi nofun
  · exact absurd hi nofun

/-- No command reads the list of responses. -/
theorem readsAgree_answered (i : Instr) (s : State) (c : Code) (p : Payload) : readsAgree i s (answered s c p) := by
  cases i <;> simp [readsAgree, answered]

/-- Settles O44: the state after the answer agrees with the one before on all that the command reads, so the command answers the
same again. -/
theorem readsHaveNoEffectAndRepeat : Obligations.ReadsHaveNoEffectAndRepeat := by
  intro i s t hi h hf
  obtain ⟨r, rfl⟩ := exec_answers_of_readsOnly hi h hf
  refine ⟨rfl, r, rfl, ?_⟩
  obtain ⟨u, hu⟩ := exec_next i (answered s r.code r.payload)
  obtain ⟨⟨l, hl, hl'⟩, hfault, -⟩ := exec_outcomesAlike (readsAgree_answered i s _ _) _ _ h hu
  obtain ⟨r', rfl⟩ := exec_answers_of_readsOnly hi hu hfault.symm
  obtain rfl : [r] = l := List.append_cancel_left hl
  obtain rfl : r' = r := List.singleton_inj.1 (List.append_cancel_left hl')
  exact hu

end Sys2Proof.Machine
end

section
/-!
PROOFS. Rules of the whole machine about single steps: reset (70_reset_and_hazards.md R210, R211), responses and the count of
accepted commands (30_encoding.md R70), BUSY (10_state.md R30), the valid flags (R23, R26, R28), and the end of a run (R221).
-/

namespace Sys2Proof.Machine

open Sys2Proof.Says

/-! ## Reset -/

/-- R210, R220: the host may reset in every state. -/
theorem resetMove_of_reset {s : State} {rest : List HostMove} (h : s.host = .reset :: rest) : s.resetMove = some rest := by
  cases hb : s.busy <;> simp [State.resetMove, hb, h, resetWhileBusy]

/-- R214: with a command held, the reset listed right behind it is made and the command stays. -/
theorem resetMove_of_held {s : State} {w : Word} {o : Nat} {rest : List HostMove} (hb : s.busy = true)
    (h : s.host = .command w o :: .reset :: rest) : s.resetMove = some (.command w o :: rest) := by
  simp [State.resetMove, hb, h, resetWhileBusy]

/-- Settles O1: a reset step is the reset of the block, and a step that leaves the fault state is no other. -/
theorem resetSetsEveryElement : Obligations.ResetSetsEveryElement := by
  refine ⟨fun s rest => resetMove_of_reset, fun s w o rest => resetMove_of_held, fun s rest => step_of_resetMove,
    statusWord_resetOf, fun s t hf h ht => ?_⟩
  cases hr : s.resetMove with
  | some rest => exact ⟨rest, rfl⟩
  | none =>
    have hstays : t.fault = true := (onlyResetLeavesTheFaultState.1 s t hf h hr).1
    simp [hstays] at ht

/-- R220: a host that waits with no CRC in flight is stuck. -/
theorem step_wait_idle {s : State} {rest : List HostMove} (hb : s.busy = false) (h : s.host = .wait :: rest) :
    step s = .fault .waitStuck := by
  simp [step, h, moveWait, hb]

/-- Settles O49: what is left is the reset state with the host's moves, from which a wait is stuck. -/
theorem resetAbandonsTheCrc : Obligations.ResetAbandonsTheCrc := by
  intro s rest hb hr
  refine ⟨_, step_of_resetMove hr, rfl, rfl, rfl, rfl, rfl, ?_, fun rest' hrest => step_wait_idle (rest := rest') rfl hrest⟩
  simp [hb]

/-- Settles O51: with no move and no CRC in flight no agent can act (R196). -/
theorem idleBlockHoldsItsState : Obligations.IdleBlockHoldsItsState := by
  intro s hb hh
  simp [step, hh, moveNone, hb]

/-! ## Responses and BUSY -/

/-- R70: a command answers once and leaves BUSY, or is a CRC that is accepted. -/
theorem exec_answers_or_accepts {i : Instr} {s t : State} (h : exec i s = .next t) :
    ((∃ r, t.responses = s.responses ++ [r]) ∧ t.busy = s.busy) ∨
    (i = .crc ∧ s.fault = false ∧ s.keyValid = true ∧ s.dvdValid = true ∧ t = s.acceptCrc) := by
  rcases exec_cases h with ⟨-, -, rfl⟩ | ⟨-, c, -, -, rfl⟩ | ⟨p, rfl, -⟩ | ⟨len, o, -, -, -, -, -, rfl⟩ |
    ⟨len, o, -, -, -, rfl⟩ | haccepts
  case inr.inr.inr.inr.inr => exact .inr haccepts
  all_goals exact .inl ⟨⟨_, rfl⟩, rfl⟩

/-- R70 for a word that is taken: only CRC's word can be accepted without a response. -/
theorem runCommand_answers_or_accepts {w : Word} {o : Nat} {s t : State} (h : runCommand w o s = .next t) :
    ((∃ r, t.responses = s.responses ++ [r]) ∧ t.busy = s.busy) ∨
    (w = 0x00000004 ∧ s.fault = false ∧ s.keyValid = true ∧ s.dvdValid = true ∧ t = s.acceptCrc) := by
  rcases runCommand_cases h with ⟨i, hd, hx⟩ | ⟨e, -, -, rfl⟩ | ⟨e, -, -, rfl⟩
  · refine (exec_answers_or_accepts hx).imp_right fun ⟨hcrc, haccepts⟩ => ⟨?_, haccepts⟩
    subst hcrc
    exact (decode_eq_ok_iff.1 hd).1
  · exact .inl ⟨⟨_, rfl⟩, rfl⟩
  · exact .inl ⟨⟨_, rfl⟩, rfl⟩

/-- Settles O45: by the agent that moved; FINISH is the engine's one response. -/
theorem everyCommandHasOneResponse : Obligations.EveryCommandHasOneResponse := by
  refine ⟨fun s t w o rest hp h => ?_, fun s t hb h hr => ?_, fun s t rest hr h => ?_⟩
  · rw [step_of_presents hp] at h
    rcases runCommand_answers_or_accepts h with ⟨hr, hb⟩ | ⟨hw, -, -, -, rfl⟩
    · exact .inl ⟨hr, hb.trans hp.1⟩
    · exact .inr ⟨hw, rfl, rfl⟩
  · rw [step_of_turn hb hr] at h
    rcases engineStep_cases h with ⟨-, rfl⟩ | ⟨-, rfl⟩
    · exact .inl ⟨hb, rfl⟩
    · exact .inr ⟨rfl, _, rfl⟩
  · rw [step_of_resetMove hr, Host.Outcome.next.injEq] at h
    rw [← h]
    rfl

/-- R30, R133: with no CRC in flight a step sets BUSY exactly by accepting a CRC. -/
theorem step_sets_busy_iff {s t : State} (h : step s = .next t) (hb : s.busy = false) :
    t.busy = true ↔
      (∃ o rest, s.host = .command 0x00000004 o :: rest) ∧ s.fault = false ∧ s.keyValid = true ∧ s.dvdValid = true := by
  constructor
  · intro ht
    rcases step_cases h with ⟨w, o, rest, -, hh, -, hx⟩ | ⟨hbusy, -⟩ | ⟨rest, -, rfl⟩ | ⟨-, -, -, rfl⟩
    · rcases runCommand_answers_or_accepts hx with ⟨-, hkeeps⟩ | ⟨rfl, hf, hk, hd, -⟩
      · simp [hkeeps, hb] at ht
      · exact ⟨⟨o, rest, hh⟩, hf, hk, hd⟩
    · simp [hb] at hbusy
    · exact absurd ht nofun
    · simp [hb] at ht
  · rintro ⟨⟨o, rest, hh⟩, hf, hk, hd⟩
    rw [step_accepts_crc hb hh hf hk hd, Host.Outcome.next.injEq] at h
    rw [← h]
    rfl

/-- R30: with a CRC in flight a step clears BUSY exactly by a reset or by FINISH. -/
theorem step_clears_busy_iff {s t : State} (h : step s = .next t) (hb : s.busy = true) :
    t.busy = false ↔ (∃ rest, s.resetMove = some rest) ∨ s.finishEnabled = true := by
  rw [finishEnabled_iff]
  cases hr : s.resetMove with
  | some rest =>
    rw [step_of_resetMove hr, Host.Outcome.next.injEq] at h
    subst h
    exact ⟨fun _ => .inl ⟨rest, rfl⟩, fun _ => rfl⟩
  | none =>
    rw [step_of_turn hb hr] at h
    rcases engineStep_cases h with ⟨hg, rfl⟩ | ⟨hg, rfl⟩
    · simp only [State.withHost_wr, State.withHost_wp] at hg
      simp [hb, hg]
    · exact ⟨fun _ => .inr ⟨hb, hg⟩, fun _ => rfl⟩

/-- Settles O46: from BUSY = 0 and from BUSY = 1. -/
theorem busyFromAcceptanceToFinish : Obligations.BusyFromAcceptanceToFinish := fun _ _ h =>
  ⟨step_sets_busy_iff h, step_clears_busy_iff h⟩

/-! ## The valid flags -/

/-- A flag stays as it is, or is set, and then `cause` holds. -/
def KeptOrSet (before after : Bool) (cause : Prop) : Prop := after = before ∨ after = true ∧ cause

theorem KeptOrSet.imp {b a : Bool} {p q : Prop} (h : KeptOrSet b a p) (hpq : p → q) : KeptOrSet b a q :=
  Or.imp_right (And.imp_right hpq) h

theorem KeptOrSet.stays_set {b a : Bool} {p : Prop} (h : KeptOrSet b a p) (hb : b = true) : a = true :=
  h.elim (fun e => e.trans hb) And.left

theorem KeptOrSet.cause {b a : Bool} {p : Prop} (h : KeptOrSet b a p) (hb : b = false) (ha : a = true) : p := by
  rcases h with rfl | ⟨-, hp⟩
  · simp [hb] at ha
  · exact hp

/-- R23, R26: LDKEY alone sets KEY_VALID, LDDVD alone DVD_VALID, and no command clears them. -/
theorem exec_keeps_or_sets_valid {i : Instr} {s t : State} (h : exec i s = .next t) :
    KeptOrSet s.keyValid t.keyValid (∃ len o, i = .ldkey len o) ∧
    KeptOrSet s.dvdValid t.dvdValid (∃ len o, i = .lddvd len o) := by
  rcases exec_cases h with ⟨-, -, rfl⟩ | ⟨-, c, -, -, rfl⟩ | ⟨p, rfl, -⟩ | ⟨len, o, hi, -, -, -, -, rfl⟩ |
    ⟨len, o, hi, -, -, rfl⟩ | ⟨-, -, -, -, rfl⟩
  case inr.inr.inr.inl => exact ⟨.inr ⟨rfl, len, o, hi⟩, .inl rfl⟩
  case inr.inr.inr.inr.inl => exact ⟨.inl rfl, .inr ⟨rfl, len, o, hi⟩⟩
  all_goals exact ⟨.inl rfl, .inl rfl⟩

/-- R23, R26 for a word that is taken, known by its opcode (R75). -/
theorem runCommand_keeps_or_sets_valid {w : Word} {o : Nat} {s t : State} (h : runCommand w o s = .next t) :
    KeptOrSet s.keyValid t.keyValid (fieldOP w = 0x02) ∧ KeptOrSet s.dvdValid t.dvdValid (fieldOP w = 0x03) := by
  rcases runCommand_cases h with ⟨i, hd, hx⟩ | ⟨e, -, -, rfl⟩ | ⟨e, -, -, rfl⟩
  · have hmeans := (fieldsMean_of_decode hd).1
    obtain ⟨hkey, hdvd⟩ := exec_keeps_or_sets_valid hx
    refine ⟨hkey.imp ?_, hdvd.imp ?_⟩
    · rintro ⟨len, o, rfl⟩
      exact hmeans.1
    · rintro ⟨len, o, rfl⟩
      exact hmeans.1
  · exact ⟨.inl rfl, .inl rfl⟩
  · exact ⟨.inl rfl, .inl rfl⟩

/-- R28: no command sets REM_VALID. -/
theorem runCommand_keeps_remValid {w : Word} {o : Nat} {s t : State} (h : runCommand w o s = .next t) :
    t.remValid = s.remValid := by
  rcases runCommand_cases h with ⟨i, -, hx⟩ | ⟨e, -, -, rfl⟩ | ⟨e, -, -, rfl⟩
  · exact (exec_keeps_rem hx).2
  · rfl
  · rfl

/-- R23, R26, R28: each valid flag is set by its own writer only, and no step but a reset clears one. -/
theorem step_keeps_or_sets_valid {s t : State} (h : step s = .next t) (hr : s.resetMove = none) :
    KeptOrSet s.keyValid t.keyValid (s.busy = false ∧ ∃ w o rest, s.host = .command w o :: rest ∧ fieldOP w = 0x02) ∧
    KeptOrSet s.dvdValid t.dvdValid (s.busy = false ∧ ∃ w o rest, s.host = .command w o :: rest ∧ fieldOP w = 0x03) ∧
    KeptOrSet s.remValid t.remValid (s.finishEnabled = true) := by
  rcases step_cases h with ⟨w, o, rest, hb, hh, -, hx⟩ | ⟨hb, -, hx⟩ | ⟨rest, hreset, -⟩ | ⟨-, -, -, rfl⟩
  · obtain ⟨hkey, hdvd⟩ := runCommand_keeps_or_sets_valid hx
    exact ⟨hkey.imp fun hop => ⟨hb, w, o, rest, hh, hop⟩, hdvd.imp fun hop => ⟨hb, w, o, rest, hh, hop⟩,
      .inl (runCommand_keeps_remValid (s := s.withHost rest) hx)⟩
  · rcases engineStep_cases hx with ⟨-, rfl⟩ | ⟨hg, rfl⟩
    · exact ⟨.inl rfl, .inl rfl, .inl rfl⟩
    · exact ⟨.inl rfl, .inl rfl, .inr ⟨rfl, (finishEnabled_iff s).2 ⟨hb, hg⟩⟩⟩
  · simp [hr] at hreset
  · exact ⟨.inl rfl, .inl rfl, .inl rfl⟩

/-- Settles O47: a flag that is kept or set by its writer stays set, and one that rises has its writer. -/
theorem validFlagsAreClearedByResetOnly : Obligations.ValidFlagsAreClearedByResetOnly := by
  intro s t h hr
  obtain ⟨hkey, hdvd, hrem⟩ := step_keeps_or_sets_valid h hr
  exact ⟨hkey.stays_set, hdvd.stays_set, hrem.stays_set, hkey.cause, hdvd.cause, hrem.cause⟩

/-! ## The count of accepted commands -/

/-- R70: a command that is taken is answered or put in flight, so it counts as one. -/
theorem runCommand_counts {w : Word} {o : Nat} {s t : State} (hb : s.busy = false) (h : runCommand w o s = .next t) :
    t.acceptedCommands = s.acceptedCommands + 1 := by
  have habandoned : t.abandoned = s.abandoned := (runCommand_keeps_frame h).2.2
  rcases runCommand_answers_or_accepts h with ⟨⟨r, hr⟩, hkeeps⟩ | ⟨-, -, -, -, rfl⟩
  · simp only [State.acceptedCommands, hr, hkeeps, habandoned, List.length_append, List.length_singleton]
    omega
  · simp only [State.acceptedCommands, State.acceptCrc_responses, State.acceptCrc_busy, State.acceptCrc_abandoned, hb,
      Bool.toNat_true, Bool.toNat_false]
    omega

/-- R141: FINISH turns the CRC in flight into a response, so the engine's steps count nothing. -/
theorem engineStep_keeps_count {s t : State} (hb : s.busy = true) (h : engineStep s = .next t) :
    t.acceptedCommands = s.acceptedCommands := by
  rcases engineStep_cases h with ⟨-, rfl⟩ | ⟨-, rfl⟩
  · rfl
  · simp [State.acceptedCommands, hb]

/-- R211: a reset turns the CRC in flight into an abandoned one. -/
theorem resetBlock_keeps_count (s : State) : s.resetBlock.acceptedCommands = s.acceptedCommands := by
  simp only [State.acceptedCommands, State.resetBlock_responses, State.resetBlock_busy, State.resetBlock_abandoned,
    Bool.toNat_false]
  omega

/-- R211: only a reset abandons a CRC. -/
theorem step_keeps_abandoned {s t : State} (h : step s = .next t) (hr : s.resetMove = none) : t.abandoned = s.abandoned := by
  rcases step_cases h with ⟨w, o, rest, -, -, -, hx⟩ | ⟨-, -, hx⟩ | ⟨rest, hreset, -⟩ | ⟨-, -, -, rfl⟩
  · exact (runCommand_keeps_frame hx).2.2
  · rw [engineStep_frame hx]
    rfl
  · simp [hr] at hreset
  · rfl

/-- Settles O53: by the agent that moved; the host presents a command in the first case of the step only. -/
theorem acceptedCommandsAreCounted : Obligations.AcceptedCommandsAreCounted := by
  refine fun s t h => ⟨fun ⟨w, o, rest, hp⟩ => ?_, fun hnone => ?_, fun ⟨rest, hr⟩ => ?_, step_keeps_abandoned h⟩
  · rw [step_of_presents hp] at h
    exact runCommand_counts (s := { s with host := rest }) hp.1 h
  · rcases step_cases h with ⟨w, o, rest, hb, hh, -⟩ | ⟨hb, -, hx⟩ | ⟨rest, -, rfl⟩ | ⟨-, -, -, rfl⟩
    · exact absurd ⟨hb, hh⟩ (hnone w o rest)
    · exact engineStep_keeps_count (s := s.withHost (movesAfterTurn s.host)) hb hx
    · exact resetBlock_keeps_count _
    · rfl
  · rw [step_of_resetMove hr, Host.Outcome.next.injEq] at h
    rw [← h]
    rfl

/-! ## The end of a run -/

/-- R221 item 3: every accepted command is answered exactly when none is in flight and none was abandoned. -/
theorem allAnswered_iff (s : State) : s.allAnswered = true ↔ s.busy = false ∧ s.abandoned = 0 := by
  cases hb : s.busy with
  | true =>
    simp [State.allAnswered, State.acceptedCommands, hb]
    omega
  | false => simp [State.allAnswered, State.acceptedCommands, hb]

theorem runEnded_iff (s : State) : s.runEnded = true ↔ s.host = [] ∧ s.busy = false ∧ s.abandoned = 0 := by
  simp only [State.runEnded, Bool.and_eq_true, allAnswered_iff, List.isEmpty_iff, Bool.not_eq_true']
  tauto

/-- R210: a step is a reset only where a reset is listed. -/
theorem reset_mem_of_resetMove {s : State} {rest : List HostMove} (h : s.resetMove = some rest) : .reset ∈ s.host := by
  unfold State.resetMove at h
  split at h
  · unfold resetWhileBusy at h
    split at h
    · next hh => simp [hh]
    · next hh => simp [hh]
    · cases h
  · split at h
    · next hh => simp [hh]
    · cases h

/-- R214, R220: a turn of the engine's adds no move. -/
theorem mem_of_mem_movesAfterTurn {m : HostMove} {moves : List HostMove} (h : m ∈ movesAfterTurn moves) : m ∈ moves := by
  unfold movesAfterTurn at h
  split at h
  · exact .tail _ h
  · rcases List.mem_cons.1 h with rfl | hrest
    · exact .head _
    · exact .tail _ (.tail _ hrest)
  · exact h

/-- The host lists no reset and no CRC has been abandoned. -/
def NothingAbandoned (s : State) : Prop := .reset ∉ s.host ∧ s.abandoned = 0

/-- R211: without a reset no CRC is abandoned. -/
theorem step_keeps_nothingAbandoned {s t : State} (hs : NothingAbandoned s) (h : step s = .next t) : NothingAbandoned t := by
  obtain ⟨hhost, habandoned⟩ := hs
  have hr : s.resetMove = none := by
    cases hr : s.resetMove with
    | none => rfl
    | some rest => exact absurd (reset_mem_of_resetMove hr) hhost
  refine ⟨fun hmem => hhost ?_, (step_keeps_abandoned h hr).trans habandoned⟩
  rcases step_cases h with ⟨w, o, rest, -, hh, -, hx⟩ | ⟨-, -, hx⟩ | ⟨rest, hreset, -⟩ | ⟨-, -, -, rfl⟩
  · rw [(runCommand_keeps_frame hx).2.1] at hmem
    rw [hh]
    exact .tail _ hmem
  · rw [engineStep_frame hx] at hmem
    exact mem_of_mem_movesAfterTurn hmem
  · simp [hr] at hreset
  · exact hmem

/-- R211: an abandoned CRC stays abandoned. -/
theorem step_keeps_abandoned_pos {s t : State} (hs : 0 < s.abandoned) (h : step s = .next t) : 0 < t.abandoned := by
  cases hr : s.resetMove with
  | none => rwa [step_keeps_abandoned h hr]
  | some rest =>
    rw [step_of_resetMove hr, Host.Outcome.next.injEq] at h
    rw [← h]
    exact Nat.add_pos_left hs _

/-- Settles O54: a run has ended when the host is done, no CRC is in flight and none was abandoned; both facts about the
abandoned ones hold along runs. -/
theorem runsEndWhenEveryCommandIsAnswered : Obligations.RunsEndWhenEveryCommandIsAnswered := by
  refine ⟨fun s => ?_, fun s => ?_, fun s h => ?_, fun cfg moves n t hmoves h => ?_, fun s t rest n hb hr h => ?_⟩
  · simp [State.runEnded, State.allAnswered, and_assoc]
  · simp [State.runSucceeded]
  · obtain ⟨hh, hb, -⟩ := (runEnded_iff s).1 h
    exact idleBlockHoldsItsState s hb hh
  · obtain ⟨-, habandoned⟩ : NothingAbandoned t := runSteps_keeps (fun _ _ => step_keeps_nothingAbandoned) ⟨hmoves, rfl⟩ h
    simp [runEnded_iff, habandoned]
  · obtain ⟨u, hu, hrun⟩ := runSteps_succ_inv h
    rw [step_of_resetMove hr, Host.Outcome.next.injEq] at hu
    have hpos : 0 < u.abandoned := by
      rw [← hu]
      simp [hb]
    have habandoned : 0 < t.abandoned := runSteps_keeps (fun _ _ => step_keeps_abandoned_pos) hpos hrun
    rw [← Bool.not_eq_true, runEnded_iff]
    exact fun ⟨_, _, hzero⟩ => habandoned.ne' hzero

end Sys2Proof.Machine
end

section
/-!
PROOFS. The engine (41_divider.md R140 to R144, 70_reset_and_hazards.md R214): its single turns, the run of an accepted CRC up
to its response, and the command held meanwhile.
-/

namespace Sys2Proof.Machine

open Sys2Proof.Says

/-! ## The loop without fuel and mask -/

section Loop

variable {r p : Nat}

/-- R142: the guard holds before each of the loop's turns. -/
theorem divGuard_iterate_divStep {k : Nat} (h : k < divTurns (bitLength r) r p) :
    divGuard ((divStep · p)^[k] r) p = true := by
  induction r using division_induction (p := p) generalizing k with
  | done r hg => simp [divTurns_done hg] at h
  | turn r hg ih =>
    rw [divTurns_step hg] at h
    cases k with
    | zero => exact hg
    | succ k => exact ih (Nat.lt_of_succ_lt_succ h)

/-- R142: after its turns the loop's value is its result. -/
theorem iterate_divTurns (r p : Nat) : (divStep · p)^[divTurns (bitLength r) r p] r = divLoopToEnd r p := by
  induction r using division_induction (p := p) with
  | done r hg => rw [divTurns_done hg, Function.iterate_zero_apply, divLoopToEnd, divLoop_done hg]
  | turn r hg ih => rw [divTurns_step hg, Function.iterate_succ_apply, ih, divLoopToEnd_eq r p, if_pos hg]

theorem divGuard_divLoopToEnd (r p : Nat) : divGuard (divLoopToEnd r p) p = false := divGuard_divLoop r p

end Loop

theorem computeRemainder_lt (k : Seq) (kl : Nat) (d : Seq) (dl : Nat) : computeRemainder k kl d dl < 2 ^ (kl - 1) :=
  Nat.mod_lt _ (Nat.two_pow_pos _)

/-- R146: for a key that is not 0 the mask changes nothing. -/
theorem computeRemainder_of_ne_zero {k : Seq} {kl : Nat} (hk : toInteger k kl ≠ 0) (d : Seq) (dl : Nat) :
    computeRemainder k kl d dl = divLoopToEnd (toInteger d dl) (toInteger k kl) := by
  have hkl : bitLength (toInteger k kl) ≤ kl := (bitLength_le_iff _ _).2 (toInteger_lt k kl)
  have hlt : bitLength (divLoopToEnd (toInteger d dl) (toInteger k kl)) < bitLength (toInteger k kl) :=
    bitLength_divLoop_lt hk _
  rw [computeRemainder_eq_divLoopToEnd, Nat.mod_eq_of_lt ((bitLength_le_iff _ _).1 (by omega))]

/-- R144: a divisor that is not 0 leaves at most as many turns as the dividend has bits. -/
theorem divTurns_le_bitLength {p : Nat} (hp : p ≠ 0) (r : Nat) : divTurns (bitLength r) r p ≤ bitLength r := by
  have hturns := divTurns_le (p := p) r
  have hpos := bitLength_pos hp
  omega

/-- R144: a CRC takes at most DVD_LEN turns. -/
theorem iterateCount_le {k : Seq} {kl : Nat} (hk : toInteger k kl ≠ 0) (d : Seq) (dl : Nat) :
    iterateCount k kl d dl ≤ dl :=
  (divTurns_le_bitLength hk _).trans ((bitLength_le_iff _ _).2 (toInteger_lt d dl))

theorem divGuard_false_of_bitLength_lt {r p : Nat} (h : bitLength r < bitLength p) : divGuard r p = false := by
  rw [← Bool.not_eq_true, divGuard_iff]
  omega

/-- Settles O29: each turn makes the bit length smaller, down from the dividend's to below the key's. -/
theorem iterationsEndWithinTheBound : Obligations.IterationsEndWithinTheBound := by
  refine ⟨fun r p hr hp hle => bitLength_divStep_lt ((divGuard_iff r p).2 ⟨hr, hp, hle⟩), fun k kl d dl hk =>
    ⟨fun hle => ?_, fun hlt => divTurns_done (divGuard_false_of_bitLength_lt hlt) _,
      Nat.succ_le_succ (iterateCount_le hk d dl)⟩⟩
  have hturns := divTurns_le (p := toInteger k kl) (toInteger d dl)
  rw [iterateCount]
  omega

/-! ## One turn of the engine -/

/-- R214, R220: whoever of the host's moves it is that a turn uses up or holds, the turn is the engine's step. -/
theorem step_of_engineTurn {s u : State} (h : engineTurn s u) (hb : s.busy = true) : step s = engineStep u := by
  rcases h with ⟨hh, rfl⟩ | ⟨rest, hh, rfl⟩ | ⟨w, o, hh, rfl⟩ | ⟨w, o, w', o', rest, hh, rfl⟩ | ⟨w, o, rest, hh, rfl⟩
  · simp [step, hh, moveNone, hb]
  · simp [step, hh, moveWait, hb, State.withHost]
  · simp [step, hh, moveCommand, hb, moveHeld]
  · simp [step, hh, moveCommand, hb, moveHeld]
  · simp [step, hh, moveCommand, hb, moveHeld, State.withHost]

/-- The host's moves are no registers of the engine's. -/
theorem engineTurn_keeps_engine {s u : State} (h : engineTurn s u) : u.wr = s.wr ∧ u.wp = s.wp ∧ u.wk = s.wk := by
  rcases h with ⟨-, rfl⟩ | ⟨rest, -, rfl⟩ | ⟨w, o, -, rfl⟩ | ⟨w, o, w', o', rest, -, rfl⟩ | ⟨w, o, rest, -, rfl⟩ <;>
    exact ⟨rfl, rfl, rfl⟩

/-- Settles O25: where the guard holds the engine's step is ITERATE, and the two steps' guards exclude each other. -/
theorem iterateDoesOneTurn : Obligations.IterateDoesOneTurn := by
  refine ⟨fun s u hu hb hr hp hle => ?_, fun s => ⟨iterateEnabled_iff s, fun hb => ?_, fun hb => ?_⟩⟩
  · obtain ⟨hwr, hwp, -⟩ := engineTurn_keeps_engine hu
    rw [← hwr] at hr hle ⊢
    rw [← hwp] at hp hle ⊢
    rw [step_of_engineTurn hu hb, engineStep_of_guard ((divGuard_iff _ _).2 ⟨hr, hp, hle⟩)]
    rfl
  · simp [State.iterateEnabled, State.finishEnabled, hb]
  · simp [State.iterateEnabled, State.finishEnabled, hb]

/-- Settles O26: where the guard does not hold the engine's step is FINISH. -/
theorem finishDeliversTheRemainder : Obligations.FinishDeliversTheRemainder := by
  intro s u hu hb hguard
  obtain ⟨hwr, hwp, hwk⟩ := engineTurn_keeps_engine hu
  have hg : divGuard u.wr u.wp = false := by rwa [hwr, hwp, ← Bool.not_eq_true, divGuard_iff]
  rw [step_of_engineTurn hu hb, engineStep_of_done hg, ← hwr, ← hwk]
  rfl

/-! ## The engine's turns from a CRC in flight to its response -/

/-- R142: the state after `k` ITERATE steps, whatever the host does besides resetting. -/
def State.afterTurns (s : State) (k : Nat) : State :=
  { s with host := movesAfterTurn^[k] s.host, wr := (divStep · s.wp)^[k] s.wr }

/-- R144: the ITERATE steps that the CRC in flight still needs. -/
def State.turnsLeft (s : State) : Nat := divTurns (bitLength s.wr) s.wr s.wp

/-- The host makes no reset before any of its next `k` moves is done. -/
def NoResetFor (k : Nat) (s : State) : Prop := ∀ j < k, resetWhileBusy (movesAfterTurn^[j] s.host) = none

section Run

variable {s : State}

theorem step_afterTurns {k : Nat} (hb : s.busy = true) (hr : resetWhileBusy (movesAfterTurn^[k] s.host) = none) :
    step (s.afterTurns k) = engineStep ((s.afterTurns k).withHost (movesAfterTurn^[k + 1] s.host)) := by
  have hbusy : (s.afterTurns k).busy = true := hb
  have hreset : (s.afterTurns k).resetMove = none := by
    rw [State.resetMove, if_pos hbusy]
    exact hr
  rw [step_of_turn hbusy hreset, Function.iterate_succ_apply']
  rfl

/-- R142: the engine's turns one by one. -/
theorem runSteps_afterTurns (hb : s.busy = true) {k : Nat} (hk : k ≤ s.turnsLeft) (hr : NoResetFor k s) :
    runSteps k s = .next (s.afterTurns k) := by
  induction k with
  | zero => rfl
  | succ k ih =>
    have hguard : engineStep ((s.afterTurns k).withHost (movesAfterTurn^[k + 1] s.host)) = .next _ :=
      engineStep_of_guard (divGuard_iterate_divStep (Nat.lt_of_succ_le hk))
    have hiterate : ((s.afterTurns k).withHost (movesAfterTurn^[k + 1] s.host)).iterate = s.afterTurns (k + 1) := by
      simp only [State.iterate, State.withHost, State.afterTurns, Function.iterate_succ_apply']
    have hprefix : runSteps k s = .next (s.afterTurns k) :=
      ih (Nat.le_of_succ_le hk) fun j hj => hr j (Nat.lt_succ_of_lt hj)
    rw [runSteps_add hprefix 1]
    exact runSteps_one (by rw [step_afterTurns hb (hr k k.lt_succ_self), hguard, hiterate])

/-- R141, R142: after its turns the CRC in flight ends with FINISH. -/
theorem runSteps_finish (hb : s.busy = true) (hr : NoResetFor (s.turnsLeft + 1) s) :
    runSteps (s.turnsLeft + 1) s =
      .next ((s.afterTurns s.turnsLeft).withHost (movesAfterTurn^[s.turnsLeft + 1] s.host)).finish := by
  have hend : divGuard (s.afterTurns s.turnsLeft).wr s.wp = false := by
    rw [State.afterTurns, State.turnsLeft, iterate_divTurns]
    exact divGuard_divLoopToEnd _ _
  have hdone : engineStep ((s.afterTurns s.turnsLeft).withHost (movesAfterTurn^[s.turnsLeft + 1] s.host)) = .next _ :=
    engineStep_of_done hend
  have hturns : runSteps s.turnsLeft s = .next (s.afterTurns s.turnsLeft) :=
    runSteps_afterTurns hb le_rfl fun j hj => hr j (Nat.lt_succ_of_lt hj)
  rw [runSteps_add hturns 1]
  exact runSteps_one (by rw [step_afterTurns hb (hr _ (Nat.lt_succ_self _)), hdone])

end Run

/-- Settles O27: the accepting step loads the engine with the operands' values, so its turns are those of the loop of
`computeRemainder`, and the mask of FINISH is that of `computeRemainder` and changes nothing. -/
theorem engineRunComputesTheRemainder : Obligations.EngineRunComputesTheRemainder := by
  intro s o rest hinv ⟨hb, hh⟩ hf hk hd n v hreset
  have haccept := step_accepts_crc hb hh hf hk hd
  have hkey : toInteger s.keySeq s.keyLen.toNat ≠ 0 := (hinv.1.2.1 hk).2.2
  have hnoReset : NoResetFor (n + 1) (s.withHost rest).acceptCrc := fun j hj => hreset j (Nat.le_of_lt_succ hj)
  refine ⟨iterateCount_le hkey _ _, fun k hkn => ?_, ?_⟩
  · refine ⟨(s.withHost rest).acceptCrc.afterTurns k, ?_, rfl, rfl, rfl, rfl⟩
    rw [run_eq_runSteps, Nat.add_comm, runSteps_succ_of_next haccept]
    exact runSteps_afterTurns rfl hkn fun j hj => hnoReset j (by omega)
  · have hwr : (divStep · (toInteger s.keySeq s.keyLen.toNat))^[n] (toInteger s.dvdSeq s.dvdLen.toNat) = v :=
      (iterate_divTurns _ _).trans (computeRemainder_of_ne_zero hkey _ _).symm
    have hmask : v % 2 ^ (s.keyLen.toNat - 1) = v := Nat.mod_eq_of_lt (computeRemainder_lt _ _ _ _)
    have hleft : (s.withHost rest).acceptCrc.turnsLeft = n := rfl
    rw [run_eq_runSteps, Nat.add_assoc, Nat.add_comm 1, runSteps_succ_of_next haccept, ← hleft,
      runSteps_finish rfl (hleft ▸ hnoReset), hleft]
    simp only [State.finish, State.finishWrites, State.respond, State.finalRemainder, State.afterTurns, State.withHost,
      State.acceptCrc, hwr, hmask]
    rfl

/-! ## The command held meanwhile -/

/-- R214, log 22: a turn of the engine's leaves the held command, and uses up a wait right behind it. -/
theorem movesAfterTurn_held (w : Word) (o : Nat) (rest : List HostMove) :
    ∃ later, movesAfterTurn (.command w o :: rest) = .command w o :: later ∧
      (rest = .wait :: later ∨ rest = later ∧ ∀ later', rest ≠ .wait :: later') := by
  cases rest with
  | nil => exact ⟨[], rfl, .inr ⟨rfl, nofun⟩⟩
  | cons m later =>
    cases m with
    | wait => exact ⟨later, rfl, .inl rfl⟩
    | command w' o' => exact ⟨_, rfl, .inr ⟨rfl, nofun⟩⟩
    | reset => exact ⟨_, rfl, .inr ⟨rfl, nofun⟩⟩

theorem iterate_movesAfterTurn_held (w : Word) (o : Nat) (rest : List HostMove) (n : Nat) :
    ∃ later, movesAfterTurn^[n] (.command w o :: rest) = .command w o :: later := by
  induction n with
  | zero => exact ⟨rest, rfl⟩
  | succ n ih =>
    obtain ⟨later, hlater⟩ := ih
    obtain ⟨later', hturn, -⟩ := movesAfterTurn_held w o later
    exact ⟨later', by rw [Function.iterate_succ_apply', hlater, hturn]⟩

theorem resetWhileBusy_held {w : Word} {o : Nat} {rest : List HostMove} (h : ∀ later, rest ≠ .reset :: later) :
    resetWhileBusy (.command w o :: rest) = none := by
  unfold resetWhileBusy
  split
  · next heq => cases heq
  · next heq => cases heq; exact absurd rfl (h _)
  · rfl

/-- R214, R144: with the invariants the CRC in flight answers after at most MAX_LEN + 1 turns. -/
theorem turnsLeft_le_maxLen {s : State} (h : s.Inv) (hb : s.busy = true) : s.turnsLeft ≤ s.cfg.maxLen := by
  obtain ⟨-, -, hbusy, -⟩ := h
  obtain ⟨hp, -, -, -, hwr, -⟩ := hbusy hb
  exact (divTurns_le_bitLength hp s.wr).trans hwr

/-- R216: the engine's step leaves the host's moves and the loaded operands. -/
theorem engineStep_keeps_operands {s t : State} (h : engineStep s = .next t) :
    t.host = s.host ∧ t.keySeq = s.keySeq ∧ t.keyLen = s.keyLen ∧ t.keyValid = s.keyValid ∧
      t.dvdSeq = s.dvdSeq ∧ t.dvdLen = s.dvdLen ∧ t.dvdValid = s.dvdValid := by
  rw [engineStep_frame h]
  exact ⟨rfl, rfl, rfl, rfl, rfl, rfl, rfl⟩

/-- Settles O28: the engine's turn keeps the held command, the reset behind it leaves it presented, and the CRC in flight ends
within its turns. -/
theorem heldCommandWaitsForTheEngine : Obligations.HeldCommandWaitsForTheEngine := by
  intro s w o rest hb hh
  refine ⟨fun hnone => ?_, ?_, fun hinv hreset => ?_⟩
  · obtain ⟨later, hturn, hrest⟩ := movesAfterTurn_held w o rest
    obtain ⟨t, ht⟩ : ∃ t, engineStep (s.withHost (.command w o :: later)) = .next t := ⟨_, rfl⟩
    have hr : s.resetMove = none := by
      rw [State.resetMove, if_pos hb, hh]
      exact resetWhileBusy_held hnone
    refine ⟨t, later, ?_, hrest, ht, engineStep_keeps_operands ht⟩
    rw [step_of_turn hb hr, hh, hturn, ht]
  · rintro later rfl
    refine ⟨_, step_of_resetMove (resetMove_of_held hb hh), ⟨rfl, rfl⟩, rfl, ?_⟩
    simp [State.resetBlock, State.withHost, State.resetOf, hb]
  · have hturns := turnsLeft_le_maxLen hinv hb
    obtain ⟨later, hlater⟩ := iterate_movesAfterTurn_held w o rest (s.turnsLeft + 1)
    exact ⟨s.turnsLeft + 1, _, later, Nat.succ_le_succ hturns, runSteps_finish hb fun j hj => hreset j (by omega),
      ⟨rfl, by rw [← hlater, ← hh]; rfl⟩, rfl, rfl⟩

end Sys2Proof.Machine
end

section
/-!
PROOFS. The division as mathematics (41_divider.md R147 to R152): remainders over GF(2), linearity, single flips, the frame
check sequence, and the standard CRC register. A number with a remainder's two properties, short enough and congruent, is the
remainder.
-/

namespace Sys2Proof.Machine

open Polynomial

/-! ## Numbers as polynomials -/

theorem natPoly_two_pow (t : Nat) : natPoly (2 ^ t) = X ^ t := by
  ext j
  rw [coeff_natPoly, coeff_X_pow, Nat.testBit_two_pow]
  simp [eq_comm]

theorem natPoly_one : natPoly 1 = 1 := natPoly_two_pow 0

theorem natPoly_eq_zero_iff (v : Nat) : natPoly v = 0 ↔ v = 0 := by
  rw [← natPoly_zero, natPoly_injective.eq_iff]

theorem monic_natPoly {v : Nat} (h : v ≠ 0) : (natPoly v).Monic := by
  rw [Monic, leadingCoeff, natDegree_natPoly h, coeff_natPoly, if_pos (testBit_bitLength_pred h)]

theorem dvd_natPoly_xor {q : (ZMod 2)[X]} {a b : Nat} (ha : q ∣ natPoly a) (hb : q ∣ natPoly b) : q ∣ natPoly (a ^^^ b) := by
  rw [natPoly_xor]
  exact dvd_add ha hb

theorem dvd_natPoly_shiftLeft {q : (ZMod 2)[X]} {a : Nat} (h : q ∣ natPoly a) (n : Nat) : q ∣ natPoly (a <<< n) := by
  rw [natPoly_shiftLeft]
  exact h.mul_right _

/-- The low `n` bits of a sum are added without a carry where the rest is a multiple of `2^n`. -/
theorem mul_two_pow_add_eq_xor (a : Nat) {n r : Nat} (h : r < 2 ^ n) : a * 2 ^ n + r = a <<< n ^^^ r := by
  refine Nat.eq_of_testBit_eq fun i => ?_
  rw [Nat.mul_comm, Nat.testBit_two_pow_mul_add _ h, Nat.testBit_xor, Nat.testBit_shiftLeft]
  by_cases hi : i < n
  · simp [hi, hi.not_ge]
  · have hr : r.testBit i = false := Nat.testBit_lt_two_pow (h.trans_le (Nat.pow_le_pow_right two_pos (by omega)))
    simp [hi, hr, Nat.le_of_not_lt hi]

/-! ## The remainder modulo the key -/

section Remainder

variable {r p v : Nat}

/-- R147: the loop computes the polynomial remainder. -/
theorem natPoly_divLoopToEnd (hp : p ≠ 0) (r : Nat) : natPoly (divLoopToEnd r p) = natPoly r % natPoly p :=
  natPoly_divLoop hp r

/-- A number shorter than the divisor that differs from the dividend by a multiple of the divisor is the remainder. -/
theorem divLoopToEnd_eq_of_dvd (hv : bitLength v < bitLength p) (h : natPoly p ∣ natPoly (r ^^^ v)) :
    divLoopToEnd r p = v := by
  have hp : p ≠ 0 := by
    rintro rfl
    simp [bitLength_zero] at hv
  have hshort : natPoly v % natPoly p = natPoly v := (mod_eq_self_iff (natPoly_ne_zero hp)).2 (degree_natPoly_lt hp hv)
  have hmod : natPoly r % natPoly p + natPoly v = 0 := by
    rw [← EuclideanDomain.mod_eq_zero, natPoly_xor, add_mod, hshort] at h
    exact h
  exact natPoly_injective ((natPoly_divLoopToEnd hp r).trans (CharTwo.add_eq_zero.1 hmod))

/-- The remainder differs from the dividend by a multiple of the divisor. -/
theorem dvd_natPoly_xor_divLoopToEnd (hp : p ≠ 0) (r : Nat) : natPoly p ∣ natPoly (r ^^^ divLoopToEnd r p) := by
  rw [natPoly_xor, natPoly_divLoopToEnd hp, ← CharTwo.sub_eq_add]
  exact Dvd.intro _ (eq_sub_of_add_eq (EuclideanDomain.div_add_mod _ _))

theorem divLoopToEnd_eq_zero_iff (hp : p ≠ 0) (r : Nat) : divLoopToEnd r p = 0 ↔ natPoly p ∣ natPoly r := by
  rw [← natPoly_eq_zero_iff, natPoly_divLoopToEnd hp, EuclideanDomain.mod_eq_zero]

theorem divLoopToEnd_of_divGuard_false (h : divGuard r p = false) : divLoopToEnd r p = r := by
  rw [divLoopToEnd_eq, h, if_neg Bool.false_ne_true]

theorem computeRemainder_eq_zero_iff {k : Seq} {kl : Nat} (hk : toInteger k kl ≠ 0) (d : Seq) (dl : Nat) :
    computeRemainder k kl d dl = 0 ↔ natPoly (toInteger k kl) ∣ natPoly (toInteger d dl) := by
  rw [computeRemainder_of_ne_zero hk, divLoopToEnd_eq_zero_iff hk]

end Remainder

/-- Settles O33: sequences as polynomials are the polynomials of their values, and the loop computes the remainder of those. -/
theorem remainderIsThePolynomialRemainder : Obligations.RemainderIsThePolynomialRemainder := by
  intro k kl d dl hk
  rw [← natPoly_toInteger, ← natPoly_toInteger]
  refine ⟨?_, computeRemainder_eq_zero_iff hk d dl⟩
  rw [computeRemainder_of_ne_zero hk, natPoly_divLoopToEnd hk]

/-! ## Linearity -/

theorem divLoopToEnd_xor {p : Nat} (hp : p ≠ 0) (a b : Nat) :
    divLoopToEnd (a ^^^ b) p = divLoopToEnd a p ^^^ divLoopToEnd b p := by
  apply natPoly_injective
  rw [natPoly_xor, natPoly_divLoopToEnd hp, natPoly_divLoopToEnd hp, natPoly_divLoopToEnd hp, natPoly_xor, add_mod]

/-- A divisor of value 0 ends the loop at once. -/
theorem divLoopToEnd_zero_right (r : Nat) : divLoopToEnd r 0 = r :=
  divLoopToEnd_of_divGuard_false (by simp [divGuard])

theorem lane_zipWith_xor {a b : Seq} {i : Nat} (h : a.length = b.length) :
    lane (List.zipWith (· ^^ ·) a b) i = (lane a i ^^ lane b i) := by
  by_cases hi : i < a.length
  · have hb : i < b.length := h ▸ hi
    simp [lane, hi, hb]
  · rw [lane_of_length_le (by simp; omega), lane_of_length_le (s := a) (by omega), lane_of_length_le (s := b) (by omega)]
    rfl

theorem toInteger_zipWith_xor {a b : Seq} (h : a.length = b.length) (len : Nat) :
    toInteger (List.zipWith (· ^^ ·) a b) len = toInteger a len ^^^ toInteger b len := by
  refine Nat.eq_of_testBit_eq fun i => ?_
  rw [Nat.testBit_xor, testBit_toInteger, testBit_toInteger, testBit_toInteger, lane_zipWith_xor h]
  cases decide (i < len) <;> simp

/-- Settles O35: the loop is linear, be the key 0 or not, and so is the mask. -/
theorem divisionIsLinear : Obligations.DivisionIsLinear := by
  intro k kl a b len ha hb
  have hloop : ∀ p, divLoopToEnd (toInteger a len ^^^ toInteger b len) p =
      divLoopToEnd (toInteger a len) p ^^^ divLoopToEnd (toInteger b len) p := by
    intro p
    rcases eq_or_ne p 0 with rfl | hp
    · simp only [divLoopToEnd_zero_right]
    · exact divLoopToEnd_xor hp _ _
  simp only [computeRemainder_eq_divLoopToEnd]
  rw [toInteger_zipWith_xor (ha.trans hb.symm), hloop, Nat.xor_mod_two_pow]

/-! ## Single flips -/

theorem lane_set {s : Seq} {j : Nat} (hj : j < s.length) (b : Bool) (i : Nat) :
    lane (s.set j b) i = if j = i then b else lane s i := by
  split
  · next h =>
    subst h
    simp [lane, hj]
  · next h => simp [lane, List.getD_eq_getElem?_getD, h]

/-- R149: a flip at index `j` adds the dividend of the one digit `j`. -/
theorem toInteger_flip {d : Seq} {len j : Nat} (hd : d.length = len) (hj : j < len) :
    toInteger (d.set j (!lane d j)) len = toInteger d len ^^^ 2 ^ (len - 1 - j) := by
  refine Nat.eq_of_testBit_eq fun i => ?_
  rw [Nat.testBit_xor, testBit_toInteger, testBit_toInteger, Nat.testBit_two_pow, lane_set (hd.symm ▸ hj)]
  by_cases hi : i < len
  · by_cases hji : j = len - 1 - i
    · have hpos : len - 1 - j = i := by omega
      simp [hi, ← hji, hpos]
    · have hpos : len - 1 - j ≠ i := by omega
      simp [hi, hji, hpos]
  · have hpos : len - 1 - j ≠ i := by omega
    simp [hi, hpos]

/-- R149: the divisors of a monomial are the monomials below it. -/
theorem natPoly_dvd_X_pow_iff {p : Nat} (hp : p ≠ 0) (m : Nat) : natPoly p ∣ X ^ m ↔ ∃ t ≤ m, p = 2 ^ t := by
  rw [dvd_prime_pow prime_X]
  refine exists_congr fun t => and_congr_right fun _ => ⟨fun h => ?_, ?_⟩
  · apply natPoly_injective
    rw [natPoly_two_pow]
    exact eq_of_monic_of_associated (monic_natPoly hp) (monic_X_pow t) h
  · rintro rfl
    rw [natPoly_two_pow]
    exact Associated.refl _

/-- Settles O36: the key divides the dividend, so it divides the flipped one exactly when it divides the flip's monomial. -/
theorem singleFlipsPassOnlyMonomialKeys : Obligations.SingleFlipsPassOnlyMonomialKeys := by
  intro k kl d len j hk hd hj hzero
  rw [computeRemainder_eq_zero_iff hk] at hzero ⊢
  rw [toInteger_flip hd hj, natPoly_xor, natPoly_two_pow, dvd_add_right hzero, natPoly_dvd_X_pow_iff hk]

/-! ## The frame check sequence -/

theorem toInteger_append_replicate (u : Seq) (n : Nat) :
    toInteger (u ++ List.replicate n false) (u.length + n) = toInteger u u.length <<< n := by
  rw [toInteger_append, (toInteger_eq_zero_iff _ n).2 fun i _ => lane_replicate_false n i, Nat.add_zero, Nat.shiftLeft_eq]

theorem toInteger_append_expand (u : Seq) {n v : Nat} (h : v < 2 ^ n) :
    toInteger (u ++ expand v n) (u.length + n) = toInteger u u.length <<< n ^^^ v := by
  rw [toInteger_append, toInteger_expand h, mul_two_pow_add_eq_xor _ h]

/-- R150: the remainder of data followed by one zero for each of the key's digits but one. -/
theorem computeRemainder_append_zeros {k : Seq} {kl : Nat} (hkl : 2 ≤ kl) (hk : toInteger k kl ≠ 0) (u : Seq) :
    computeRemainder k kl (u ++ List.replicate (kl - 1) false) (u.length + kl - 1) =
      divLoopToEnd (toInteger u u.length <<< (kl - 1)) (toInteger k kl) := by
  rw [computeRemainder_of_ne_zero hk, Nat.add_sub_assoc (by omega), toInteger_append_replicate]

/-- Settles O37: the frame check sequence is the remainder of the data with zeros behind it, and the remainder differs from its
dividend by a multiple of the key. -/
theorem fcsRoundTrip : Obligations.FcsRoundTrip := by
  intro k kl u hkl hk
  rw [computeRemainder_eq_zero_iff hk, Nat.add_sub_assoc (by omega), toInteger_append_expand u (computeRemainder_lt _ _ _ _),
    ← Nat.add_sub_assoc (by omega), computeRemainder_append_zeros hkl hk]
  exact dvd_natPoly_xor_divLoopToEnd hk _

/-! ## The standard CRC register -/

theorem toInteger_cons (b : Bool) (s : Seq) (n : Nat) :
    toInteger (b :: s) (n + 1) = b.toNat <<< n ^^^ toInteger s n := by
  have hsingle : toInteger [b] [b].length = b.toNat := by simp [toInteger, lane]
  rw [← mul_two_pow_add_eq_xor _ (toInteger_lt s n), ← hsingle, ← toInteger_append, Nat.add_comm n]
  rfl

theorem toInteger_concat (s : Seq) (b : Bool) :
    toInteger (s ++ [b]) (s ++ [b]).length = toInteger s s.length <<< 1 ^^^ b.toNat := by
  have hsingle : toInteger [b] 1 = b.toNat := by simp [toInteger, lane]
  rw [List.length_append, List.length_singleton, toInteger_append, hsingle, mul_two_pow_add_eq_xor _ (Bool.toNat_lt b)]

section Register

variable {w gen reg : Nat}

/-- R152: shifting the register drops its top bit. -/
theorem two_mul_eq_xor_top (hw : 1 ≤ w) (h : reg < 2 ^ w) :
    reg <<< 1 = (reg.testBit (w - 1)).toNat <<< w ^^^ 2 * reg % 2 ^ w := by
  have htop : (reg.testBit (w - 1)).toNat = 2 * reg / 2 ^ w := by
    obtain ⟨n, rfl⟩ : ∃ n, w = n + 1 := ⟨w - 1, by omega⟩
    have hlt : reg / 2 ^ n < 2 := Nat.div_lt_of_lt_mul (by rwa [← Nat.pow_succ])
    rw [Nat.toNat_testBit, Nat.pow_succ', Nat.mul_div_mul_left _ _ two_pos, Nat.add_sub_cancel, Nat.mod_eq_of_lt hlt]
  rw [← mul_two_pow_add_eq_xor _ (Nat.mod_lt _ (Nat.two_pow_pos w)), htop, Nat.mul_comm, Nat.div_add_mod, Nat.shiftLeft_eq,
    Nat.mul_comm, pow_one]

theorem registerShift_lt (hgen : gen < 2 ^ w) (b : Bool) : registerShift w gen reg b < 2 ^ w := by
  unfold registerShift
  split
  · exact Nat.xor_lt_two_pow (Nat.mod_lt _ (Nat.two_pow_pos w)) hgen
  · exact Nat.mod_lt _ (Nat.two_pow_pos w)

theorem registerCrc_lt (hgen : gen < 2 ^ w) (u : Seq) : registerCrc w gen u < 2 ^ w := by
  induction u using List.reverseRecOn with
  | nil => exact Nat.two_pow_pos w
  | append_singleton u b _ =>
    rw [registerCrc, List.foldl_append]
    exact registerShift_lt hgen b

/-- R152: the register's step doubles it and adds the data bit at the width, where it adds the key when the bit it drops differs
from the data bit. -/
theorem xor_registerShift (hw : 1 ≤ w) (h : reg < 2 ^ w) (b : Bool) :
    reg <<< 1 ^^^ b.toNat <<< w ^^^ registerShift w gen reg b =
      if reg.testBit (w - 1) != b then 1 <<< w ^^^ gen else 0 := by
  rw [two_mul_eq_xor_top hw h, registerShift]
  cases reg.testBit (w - 1) <;> cases b <;> simp [Nat.xor_comm, Nat.xor_left_comm]

theorem dvd_natPoly_xor_registerShift (hw : 1 ≤ w) (h : reg < 2 ^ w) (b : Bool) :
    natPoly (1 <<< w ^^^ gen) ∣ natPoly (reg <<< 1 ^^^ b.toNat <<< w ^^^ registerShift w gen reg b) := by
  rw [xor_registerShift hw h]
  split
  · exact dvd_rfl
  · simp

/-- R152: the register holds the data's remainder, up to a multiple of the key. -/
theorem dvd_natPoly_xor_registerCrc (hw : 1 ≤ w) (hgen : gen < 2 ^ w) (u : Seq) :
    natPoly (1 <<< w ^^^ gen) ∣ natPoly (toInteger u u.length <<< w ^^^ registerCrc w gen u) := by
  induction u using List.reverseRecOn with
  | nil => simp [toInteger, registerCrc]
  | append_singleton u b ih =>
    have hnext : registerCrc w gen (u ++ [b]) = registerShift w gen (registerCrc w gen u) b := by
      rw [registerCrc, List.foldl_append]
      rfl
    have hsplit : toInteger (u ++ [b]) (u ++ [b]).length <<< w ^^^ registerCrc w gen (u ++ [b]) =
        (toInteger u u.length <<< w ^^^ registerCrc w gen u) <<< 1 ^^^
          (registerCrc w gen u <<< 1 ^^^ b.toNat <<< w ^^^ registerCrc w gen (u ++ [b])) := by
      rw [toInteger_concat, Nat.shiftLeft_xor_distrib, Nat.shiftLeft_xor_distrib, ← Nat.shiftLeft_add, ← Nat.shiftLeft_add,
        Nat.add_comm 1]
      simp [Nat.xor_assoc]
    rw [hsplit, hnext]
    exact dvd_natPoly_xor (dvd_natPoly_shiftLeft ih 1) (dvd_natPoly_xor_registerShift hw (registerCrc_lt hgen u) b)

end Register

/-- Settles O38: the register's value is shorter than the key and differs from the dividend by a multiple of it, so it is the
remainder. -/
theorem agreesWithTheStandardCrcRegister : Obligations.AgreesWithTheStandardCrcRegister := by
  intro k kl u hkl hlen hlane
  obtain ⟨w, rfl⟩ : ∃ w, kl = w + 1 := ⟨kl - 1, by omega⟩
  cases k with
  | nil => simp at hlen
  | cons b gen =>
    obtain rfl : b = true := hlane
    have hgen : toInteger gen w < 2 ^ w := toInteger_lt gen w
    have hkey : toInteger (true :: gen) (w + 1) = 1 <<< w ^^^ toInteger gen w := toInteger_cons true gen w
    have hlong : w < bitLength (toInteger (true :: gen) (w + 1)) := by
      rw [lt_bitLength_iff, hkey, ← mul_two_pow_add_eq_xor 1 hgen]
      omega
    have hshort : bitLength (registerCrc w (toInteger gen w) u) ≤ w := (bitLength_le_iff _ _).2 (registerCrc_lt hgen u)
    rw [computeRemainder_append_zeros hkl (by rintro h; simp [h, bitLength_zero] at hlong)]
    refine divLoopToEnd_eq_of_dvd (hshort.trans_lt hlong) ?_
    rw [hkey]
    exact dvd_natPoly_xor_registerCrc (by omega) hgen u

end Sys2Proof.Machine
end

section
/-!
PROOFS. The corner cases of CRC (41_divider.md R148, items 1 to 7).
-/

namespace Sys2Proof.Machine

open Polynomial

/-! ## Keys and dividends of one digit pattern -/

theorem bitLength_one : bitLength 1 = 1 := rfl

theorem bitLength_two_pow (t : Nat) : bitLength (2 ^ t) = t + 1 := by
  rw [← Nat.one_shiftLeft, bitLength_shiftLeft one_ne_zero, bitLength_one, Nat.add_comm]

/-- R148 item 2: a dividend equal to the key takes one turn, which leaves 0. -/
theorem divTurns_self {p : Nat} (hp : p ≠ 0) : divTurns (bitLength p) p p = 1 := by
  have hstep : divStep p p = 0 := by rw [divStep, Nat.sub_self, Nat.shiftLeft_zero, Nat.xor_self]
  rw [divTurns_step ((divGuard_iff p p).2 ⟨hp, hp, le_rfl⟩), hstep, divTurns_done rfl]

/-- R148 item 3: leading zeros change no value. -/
theorem toInteger_replicate_append (j : Nat) (s : Seq) (n : Nat) :
    toInteger (List.replicate j false ++ s) (j + n) = toInteger s n := by
  have hzeros : toInteger (List.replicate j false) j = 0 := (toInteger_eq_zero_iff _ j).2 fun i _ => lane_replicate_false j i
  have happend := toInteger_append (List.replicate j false) s n
  rwa [List.length_replicate, hzeros, Nat.zero_mul, Nat.zero_add] at happend

/-- R148 item 5: under the key `x^t` the remainder is the dividend's low `t` bits. -/
theorem divLoopToEnd_two_pow (r t : Nat) : divLoopToEnd r (2 ^ t) = r % 2 ^ t := by
  have hlow : r % 2 ^ t < 2 ^ t := Nat.mod_lt _ (Nat.two_pow_pos t)
  have hparts : r = (r / 2 ^ t) <<< t ^^^ r % 2 ^ t := by rw [← mul_two_pow_add_eq_xor _ hlow, Nat.div_add_mod']
  have hhigh : r ^^^ r % 2 ^ t = (r / 2 ^ t) <<< t :=
    (congrArg (· ^^^ r % 2 ^ t) hparts).trans (Nat.xor_xor_cancel_right _ _)
  refine divLoopToEnd_eq_of_dvd ?_ ?_
  · rw [bitLength_two_pow]
    exact Nat.lt_succ_of_le ((bitLength_le_iff _ _).2 hlow)
  · rw [hhigh, natPoly_shiftLeft, natPoly_two_pow]
    exact dvd_mul_left _ _

/-! ## The key of value 1: one turn for each 1 of the dividend -/

/-- A turn under the key 1 clears the top bit. -/
theorem divTurns_top_one {n r : Nat} (h : r < 2 ^ n) :
    divTurns (bitLength (1 <<< n ^^^ r)) (1 <<< n ^^^ r) 1 = divTurns (bitLength r) r 1 + 1 := by
  have hlen : bitLength (1 <<< n ^^^ r) = n + 1 := by
    rw [← mul_two_pow_add_eq_xor 1 h]
    refine le_antisymm ((bitLength_le_iff _ _).2 ?_) ((lt_bitLength_iff _ _).2 ?_)
    · rw [Nat.pow_succ]
      omega
    · omega
  have hguard : divGuard (1 <<< n ^^^ r) 1 = true := by
    refine (divGuard_iff _ _).2 ⟨fun h0 => ?_, one_ne_zero, by rw [hlen, bitLength_one]; omega⟩
    rw [h0, bitLength_zero] at hlen
    omega
  have hstep : divStep (1 <<< n ^^^ r) 1 = r := by
    rw [divStep, hlen, bitLength_one, Nat.add_sub_cancel, Nat.xor_comm (1 <<< n), Nat.xor_xor_cancel_right]
  rw [divTurns_step hguard, hstep]

/-- R148 item 4. -/
theorem divTurns_one_eq_count (d : Seq) :
    divTurns (bitLength (toInteger d d.length)) (toInteger d d.length) 1 = d.count true := by
  induction d with
  | nil => rfl
  | cons b d ih =>
    rw [List.length_cons, toInteger_cons]
    cases b with
    | false => simpa using ih
    | true => rw [Bool.toNat_true, divTurns_top_one (toInteger_lt d _), ih, List.count_cons_self]

/-! ## The key of value 3: the parity of the dividend -/

theorem natPoly_three : natPoly 3 = X - C 1 := by
  have hbits : 3 = 2 ^ 1 ^^^ 2 ^ 0 := rfl
  rw [hbits, natPoly_xor, natPoly_two_pow, natPoly_two_pow, pow_one, pow_zero, CharTwo.sub_eq_add, C_1]

/-- R148: at 1 the dividend's polynomial counts its digits. -/
theorem eval_one_natPoly_toInteger (d : Seq) : (natPoly (toInteger d d.length)).eval 1 = (d.count true : ZMod 2) := by
  induction d with
  | nil => simp [toInteger]
  | cons b d ih =>
    rw [List.length_cons, toInteger_cons, natPoly_xor, natPoly_shiftLeft, eval_add, ih]
    cases b <;> simp [natPoly_one, add_comm]

theorem eval_one_natPoly_parity (n : Nat) : (natPoly (n % 2)).eval 1 = (n : ZMod 2) := by
  rw [← ZMod.natCast_mod n 2]
  rcases Nat.mod_two_eq_zero_or_one n with h | h <;> simp [h, natPoly_one]

/-- R148: under the key `x + 1` the remainder is the parity. -/
theorem divLoopToEnd_three (d : Seq) : divLoopToEnd (toInteger d d.length) 3 = d.count true % 2 := by
  refine divLoopToEnd_eq_of_dvd ?_ ?_
  · have hshort : bitLength (d.count true % 2) ≤ 1 := (bitLength_le_iff _ _).2 (Nat.mod_lt _ two_pos)
    exact Nat.lt_succ_of_le hshort
  · rw [natPoly_three, dvd_iff_isRoot, IsRoot, natPoly_xor, eval_add, eval_one_natPoly_toInteger, eval_one_natPoly_parity,
      CharTwo.add_self_eq_zero]

/-- R148 item 7: where WR has become 0 the division is over, and its remainder is 0. -/
theorem finish_of_wr_zero {s : State} (hb : s.busy = true) (hr : s.wr = 0) :
    s.finishEnabled = true ∧ s.finalRemainder = 0 := by
  refine ⟨(finishEnabled_iff s).2 ⟨hb, by simp [divGuard, hr]⟩, ?_⟩
  rw [State.finalRemainder, hr, Nat.zero_mod]

/-- Settles O34: each item is a dividend or a key whose remainder is known. -/
theorem divisionCornerCases : Obligations.DivisionCornerCases := by
  intro k kl d dl hkl hk
  refine ⟨fun hzero => ?_, ⟨?_, divTurns_self hk⟩, fun j => ?_, ?_, fun t ht => ?_, fun hlt => ?_,
    fun s => finish_of_wr_zero, ?_⟩
  · rw [← toInteger_eq_zero_iff] at hzero
    rw [computeRemainder_of_ne_zero hk, iterateCount, hzero]
    exact ⟨divTurns_done rfl _, divLoopToEnd_of_divGuard_false rfl⟩
  · exact (computeRemainder_eq_zero_iff hk k kl).2 dvd_rfl
  · rw [computeRemainder_eq_zero_iff hk, toInteger_replicate_append]
  · rintro hone rfl
    rw [computeRemainder_eq_zero_iff hk, iterateCount, hone, natPoly_one]
    exact ⟨one_dvd _, divTurns_one_eq_count d⟩
  · rw [computeRemainder_of_ne_zero hk, ht, divLoopToEnd_two_pow]
  · have hguard := divGuard_false_of_bitLength_lt hlt
    rw [computeRemainder_of_ne_zero hk]
    exact ⟨divTurns_done hguard _, divLoopToEnd_of_divGuard_false hguard⟩
  · rintro hthree rfl
    rw [computeRemainder_of_ne_zero hk, hthree, divLoopToEnd_three]

end Sys2Proof.Machine
end
